-- ==== Sys2Proof/Word.lean ====
section
/-! DEFINITION. The widths of the block's boundary and datapath (R7, R44). Every one is a bit vector because the
spec numbers its bits, slices it, or computes on it modulo a power of two (R9, R11). -/

namespace Sys2Proof

/-- The 48-bit generator state (R20). -/
abbrev Lcg := BitVec 48

/-- A 32-bit extractor word `w` (R92), and a bound operand (R63, M32). -/
abbrev Word32 := BitVec 32

/-- A 64-bit ARG or DATA value (R60, R67). -/
abbrev Word64 := BitVec 64

/-- A byte of the FILL buffer (R41). -/
abbrev Byte := BitVec 8

/-- The OP field of a command word (R60). -/
abbrev Op := BitVec 8

/-- A command word CW[71:0] (R60). -/
abbrev CommandWord := BitVec 72

end Sys2Proof
end

