-- ==== Sys2Proof/Config.lean ====
section
/-! DEFINITION. What is fixed for every instance (R7, R23), and the fuel of the rejection loop (R134). The spec's two
open parameters are not here: LAT is timing, outside the model (log entry 3), and N_INST is the length of a
`Machine.Chip` (R163). The spec leaves no result undefined (N19), so there is no free value. -/

namespace Sys2Proof

/-- MULTIPLIER = 0x5DEECE66D, "fixed for all instances" (R23), in the 64-bit width of R90's product. -/
def Config.multiplier : Word64 := 0x5DEECE66D#64

/-- ADDEND = 0xB (R23). -/
def Config.addend : Word64 := 0xB#64

/-- MASK = (1 << 48) - 1 (R23). -/
def Config.mask : Word64 := 0xFFFFFFFFFFFF#64

/-- The largest bit count STEP accepts (R7, R93). -/
def Config.stepMax : Nat := 48

/-- Fuel of the rejection loop: "a model that runs it with fuel 2^48 per command loses no run" (R134). -/
def Config.samplerFuel : Nat := 2 ^ 48

end Sys2Proof
end

