-- ==== Sys2Proof/Syntax.lean ====
section
/-! DEFINITION. The thirteen commands of R62, one constructor per row of spec/opcode_table.json, with the operand its
form of R63 reads. The bits a form ignores (R64) are not part of a command. -/

namespace Sys2Proof

/-- A command. `seed` keeps ARG's bits as they stand (form S64); `step` and `fill` read ARG as an unsigned integer
(form U64); the two bounds keep ARG[31:0] (form M32); every other command has no operand (R63). -/
inductive Instr where
  | seed (seed : Word64)
  | getseed
  | step (bits : Nat)
  | nexti32
  | nextu32
  | nexti64
  | nextu64
  | nextbool
  | nextf32
  | nextf64
  | boundi32 (max : Word32)
  | boundu32 (max : Word32)
  | fill (n : Nat)
  deriving DecidableEq, Repr

end Sys2Proof
end

