-- ==== Sys2Proof/WellFormed.lean ====
section
/-! DEFINITION. Which commands a command word can carry: an unsigned operand of form U64 lies in 0 to 2^64-1 (R63).
The operands of the other forms are bit vectors of the right width, so they need no check. -/

namespace Sys2Proof

/-- The command's operand fits the ARG field (R63). An operand that makes the command fault is well formed: "the
fault is the block's verdict" (R69). -/
def Instr.wf : Instr → Bool
  | .seed _ => true
  | .getseed => true
  | .step bits => decide (bits < 2 ^ 64)
  | .nexti32 => true
  | .nextu32 => true
  | .nexti64 => true
  | .nextu64 => true
  | .nextbool => true
  | .nextf32 => true
  | .nextf64 => true
  | .boundi32 _ => true
  | .boundu32 _ => true
  | .fill n => decide (n < 2 ^ 64)

end Sys2Proof
end

