-- ==== Sys2Proof/Decode.lean ====
section
/-! DEFINITION. The command word (R60), the opcode map (R62), the operand forms (R63), the decoder and the encoder.
"A decoder tells the command from OP alone, and the length is always the same" (R61). -/

namespace Sys2Proof

/-! The thirteen assigned OP values (R62). -/

/-- OP of SEED (R62). -/
def opSeed : Op := 0x01#8
/-- OP of GETSEED (R62). -/
def opGetseed : Op := 0x02#8
/-- OP of STEP (R62). -/
def opStep : Op := 0x03#8
/-- OP of NEXTI32 (R62). -/
def opNexti32 : Op := 0x10#8
/-- OP of NEXTU32 (R62). -/
def opNextu32 : Op := 0x11#8
/-- OP of NEXTI64 (R62). -/
def opNexti64 : Op := 0x12#8
/-- OP of NEXTU64 (R62). -/
def opNextu64 : Op := 0x13#8
/-- OP of NEXTBOOL (R62). -/
def opNextbool : Op := 0x14#8
/-- OP of NEXTF32 (R62). -/
def opNextf32 : Op := 0x15#8
/-- OP of NEXTF64 (R62). -/
def opNextf64 : Op := 0x16#8
/-- OP of BOUNDI32 (R62). -/
def opBoundi32 : Op := 0x20#8
/-- OP of BOUNDU32 (R62). -/
def opBoundu32 : Op := 0x21#8
/-- OP of FILL (R62). -/
def opFill : Op := 0x30#8

/-- The assigned OP values in the order of R62's table. -/
def assignedOps : List Op :=
  [opSeed, opGetseed, opStep, opNexti32, opNextu32, opNexti64, opNextu64, opNextbool, opNextf32, opNextf64,
   opBoundi32, opBoundu32, opFill]

/-- The OP value of a command (R62). -/
def Instr.op : Instr → Op
  | .seed _ => opSeed
  | .getseed => opGetseed
  | .step _ => opStep
  | .nexti32 => opNexti32
  | .nextu32 => opNextu32
  | .nexti64 => opNexti64
  | .nextu64 => opNextu64
  | .nextbool => opNextbool
  | .nextf32 => opNextf32
  | .nextf64 => opNextf64
  | .boundi32 _ => opBoundi32
  | .boundu32 _ => opBoundu32
  | .fill _ => opFill

/-- OP = CW[71:64] (R60). -/
def opField (w : CommandWord) : Op := w.extractLsb' 64 8

/-- ARG = CW[63:0] (R60). -/
def argField (w : CommandWord) : Word64 := w.extractLsb' 0 64

/-- CW = {OP, ARG}, OP in the high-order bits (R60). -/
def commandWord (op : Op) (arg : Word64) : CommandWord := op ++ arg

/-- Form S64: "the bits are used as they stand" (R63). -/
def argS64 (arg : Word64) : Word64 := arg

/-- Form U64: uval(ARG), 0 to 2^64-1 (R63). -/
def argU64 (arg : Word64) : Nat := arg.toNat

/-- Form M32: ARG[31:0]; ARG[63:32] is ignored (R63). -/
def argM32 (arg : Word64) : Word32 := arg.extractLsb' 0 32

/-- The ARG bits a command with this OP uses, as a mask: all for S64 and U64, ARG[31:0] for M32, none for the other
commands (R63, R64). -/
def usedArgBits (op : Op) : Word64 :=
  if op = opSeed ∨ op = opStep ∨ op = opFill then 0xFFFFFFFFFFFFFFFF#64
  else if op = opBoundi32 ∨ op = opBoundu32 then 0x00000000FFFFFFFF#64
  else 0#64

/-- Why a command word selects no command. -/
inductive DecodeError where
  /-- OP is not one of the thirteen assigned values (R65); it is kept because fault entry records it in FOP (R157). -/
  | illegalOp (op : Op)
  deriving DecidableEq, Repr

/-- The command a word selects, by OP alone (R61, R62), with its operand (R63). -/
def decode (w : CommandWord) : Except DecodeError Instr :=
  if opField w = opSeed then .ok (.seed (argS64 (argField w)))
  else if opField w = opGetseed then .ok .getseed
  else if opField w = opStep then .ok (.step (argU64 (argField w)))
  else if opField w = opNexti32 then .ok .nexti32
  else if opField w = opNextu32 then .ok .nextu32
  else if opField w = opNexti64 then .ok .nexti64
  else if opField w = opNextu64 then .ok .nextu64
  else if opField w = opNextbool then .ok .nextbool
  else if opField w = opNextf32 then .ok .nextf32
  else if opField w = opNextf64 then .ok .nextf64
  else if opField w = opBoundi32 then .ok (.boundi32 (argM32 (argField w)))
  else if opField w = opBoundu32 then .ok (.boundu32 (argM32 (argField w)))
  else if opField w = opFill then .ok (.fill (argU64 (argField w)))
  else .error (.illegalOp (opField w))

/-- The ARG an encoder writes: the operand, with every ignored bit 0 (R69). -/
def Instr.arg : Instr → Word64
  | .seed v => v
  | .getseed => 0
  | .step bits => BitVec.ofNat 64 bits
  | .nexti32 => 0
  | .nextu32 => 0
  | .nexti64 => 0
  | .nextu64 => 0
  | .nextbool => 0
  | .nextf32 => 0
  | .nextf64 => 0
  | .boundi32 m => m.setWidth 64
  | .boundu32 m => m.setWidth 64
  | .fill n => BitVec.ofNat 64 n

/-- The command word of a command (R60, R62, R69). -/
def encode (i : Instr) : CommandWord := commandWord i.op i.arg

/-- The command the decoder reads from an instruction of `nbits` bits whose bits are `w`, numbered as
spec/opcode_table.json numbers them: one 72-bit word, OP in bits 71:64 (R60). Bits above `nbits` are 0. -/
def decodeTableWord (nbits w : Nat) : Option Instr :=
  match decode (BitVec.ofNat 72 (w % 2 ^ nbits)) with
  | .ok i => some i
  | .error _ => none

end Sys2Proof
end

