-- ==== Sys2Proof/Machine/State.lean ====
section
/-! DEFINITION. The state of one instance (R34), the pins its host drives (D2), and the reasons a step can stop. -/

namespace Sys2Proof.Machine

/-- The fault causes that are entered (R150); code 0, NONE, is the absence of a fault and codes 5 to 15 are never
produced. -/
inductive Cause where
  /-- STEP with uval(ARG) > 48 (R151). -/
  | stepBits
  /-- BOUNDI32 or BOUNDU32 with sval(ARG[31:0]) ≤ 0 (R152). -/
  | boundNonpos
  /-- A legal command other than SEED while SEEDED = 0 (R153). -/
  | notSeeded
  /-- An OP that selects no command (R154). -/
  | illegalOp
  deriving DecidableEq, Repr

/-- One response beat (R67): NB says how many bytes of DATA are valid. -/
structure Beat where
  nb : BitVec 4
  data : Word64
  deriving DecidableEq, Repr

/-- One sample of the pins the host drives (D2): `rst`; `cmd_valid` with `cmd_op` and `cmd_arg` as one command word
(some word exactly when `cmd_valid` = 1); `rsp_ready`. -/
structure Pins where
  rst : Bool := false
  cmd : Option CommandWord := none
  rspReady : Bool := false
  deriving DecidableEq, Repr

/-- One instance of the block. The first four fields are those of R34 with BUSY of R26; the response channel's list of
beats is kept as `pending` (emitted, not yet transferred, R31) and `transferred` (with the host, R173), each oldest
first. `inputs` is the MODEL's own field (DESIGN CHOICE, log entry 1): what the host does, one sample of its pins per
step, the next first. -/
structure State where
  /-- STATE[47:0], or no value until the first SEED (R20, R22). -/
  state : Option Lcg
  /-- STATUS.SEEDED (R27). -/
  seeded : Bool
  /-- STATUS.BUSY (R29). -/
  busy : Bool
  /-- STATUS.FAULT with CAUSE and FOP: none while FAULT = 0 (R28). -/
  fault : Option (Cause × Op)
  /-- Beats emitted and not yet transferred (R31). -/
  pending : List Beat
  /-- Beats the host has taken (R34, R173). -/
  transferred : List Beat
  /-- The host's pins from now on (R177). -/
  inputs : List Pins
  deriving DecidableEq, Repr

/-- After reset (R33): STATE holds no value, STATUS is 0x0000, no command in progress, no beat. The host's list is
empty (DESIGN CHOICE, log entry 1). -/
def State.reset : State where
  state := none
  seeded := false
  busy := false
  fault := none
  pending := []
  transferred := []
  inputs := []

/-- Why the model stops. The block's own faults are no stops: they are next states with `State.fault` set (R157). -/
inductive Fault where
  /-- Raised by a command that has passed its checks when SEEDED = 1 and STATE holds no value. Safe: R27 excludes it,
  and no run from reset reaches it. -/
  | stateUnwritten
  /-- Raised by BOUNDI32 and BOUNDU32 when 2^48 draws have been rejected (I11: "treats fuel exhaustion as stuck").
  Safe: R134 excludes it. -/
  | samplerExhausted
  deriving DecidableEq, Repr

/-- Why the model gives an instruction no meaning. -/
inductive Refusal where
  /-- Raised by a dispatch arm that has no meaning yet, with the table's mnemonic. Safe: the machine stops. No arm of
  this model raises it. -/
  | notModelled (mnemonic : String)
  deriving DecidableEq, Repr

/-- The answer of a command or a step. -/
abbrev Answer := Host.Outcome State Fault Refusal

end Sys2Proof.Machine
end

