-- ==== Sys2Proof/Machine/Flags.lean ====
section
/-! DEFINITION. The STATUS register (R26): its fields, its 16-bit word, and a decoder of that word for the host. -/

namespace Sys2Proof.Machine

/-- The CAUSE code of a fault (R150). -/
def Cause.code : Cause → BitVec 4
  | .stepBits => 1#4
  | .boundNonpos => 2#4
  | .notSeeded => 3#4
  | .illegalOp => 4#4

/-- The cause a code names; 0 names none, and 5 to 15 are refused (R150, I6). -/
def Cause.ofCode (code : BitVec 4) : Option Cause :=
  if code = 1#4 then some .stepBits
  else if code = 2#4 then some .boundNonpos
  else if code = 3#4 then some .notSeeded
  else if code = 4#4 then some .illegalOp
  else none

/-- STATUS.FAULT (R28). -/
def State.faultBit (s : State) : Bool := s.fault.isSome

/-- STATUS.CAUSE; 0 while FAULT = 0 (R26, R28). -/
def State.cause (s : State) : BitVec 4 :=
  match s.fault with
  | none => 0#4
  | some (c, _) => c.code

/-- STATUS.FOP; 0 while FAULT = 0 (R26, R28). -/
def State.fop (s : State) : Op :=
  match s.fault with
  | none => 0#8
  | some (_, op) => op

/-- STATUS[15:0] = {FOP, CAUSE, 0, BUSY, FAULT, SEEDED} (R26, R30). Reading it has no side effect. -/
def State.status (s : State) : BitVec 16 :=
  s.fop ++ s.cause ++ 0#1 ++ BitVec.ofBool s.busy ++ BitVec.ofBool s.faultBit ++ BitVec.ofBool s.seeded

/-- What a host reads out of STATUS. -/
structure StatusView where
  seeded : Bool
  busy : Bool
  fault : Option (Cause × Op)
  deriving DecidableEq, Repr

/-- The host's decoder of a STATUS word (R26): it refuses a word no block drives, one with a CAUSE never produced, or
with CAUSE or FOP not 0 while FAULT = 0 (I6, I8). Bit 3 is not looked at: "A claim should not depend on it" (I5). -/
def decodeStatus (w : BitVec 16) : Option StatusView :=
  if w.getLsbD 1 then
    (Cause.ofCode (w.extractLsb' 4 4)).map fun c =>
      { seeded := w.getLsbD 0, busy := w.getLsbD 2, fault := some (c, w.extractLsb' 8 8) }
  else if w.extractLsb' 4 12 = 0#12 then
    some { seeded := w.getLsbD 0, busy := w.getLsbD 2, fault := none }
  else none

end Sys2Proof.Machine
end

