-- ==== Sys2Proof/Machine/Ops.lean ====
section
/-! DEFINITION. The named operations every command is written with: the multiply-add-mask unit, the extractor, `emit`,
the writes of STATE, fault entry, the SEEDED check, and what happens at the pins. -/

namespace Sys2Proof.Machine

/-! ### The datapath -/

/-- The new state of `Advance()` (R90): the 64-bit product and sum wrap, and AND MASK leaves bits 47:0. -/
def advance (x : Lcg) : Lcg :=
  ((x.setWidth 64 * Config.multiplier + Config.addend) &&& Config.mask).setWidth 48

/-- `n` calls of `Advance()` one after the other, each reading what the one before wrote (R175). -/
def advances : Nat → Lcg → Lcg
  | 0, x => x
  | n + 1, x => advance (advances n x)

/-- The word `Next(b)` returns when the new state is `x`: the low 32 bits of `x` shifted right by 48 - b (R92, C1). -/
def extract (b : Nat) (x : Lcg) : Word32 := (x.setWidth 64 >>> (48 - b)).setWidth 32

/-- `Next(b)` from state `x`: the word, and the state after the one `Advance()` (R92). -/
def draw (b : Nat) (x : Lcg) : Word32 × Lcg := (extract b (advance x), advance x)

/-- The state SEED writes: (seed XOR MULTIPLIER) AND MASK (R80). -/
def scramble (seed : Word64) : Lcg := ((seed ^^^ Config.multiplier) &&& Config.mask).setWidth 48

/-! ### STATE, the response channel and fault entry -/

/-- `STATE <- x` (R13, R20). -/
def State.writeState (s : State) (x : Lcg) : State := { s with state := some x }

/-- `SEEDED <- 1` (R27, R80). -/
def State.setSeeded (s : State) : State := { s with seeded := true }

/-- `emit(nb, data)`: one beat at the end of the response channel (R13, R67). -/
def State.emit (s : State) (nb : BitVec 4) (data : Word64) : State := { s with pending := s.pending ++ [⟨nb, data⟩] }

/-- `emit(8, data)`, the one beat of a value command (R67). -/
def State.emitValue (s : State) (data : Word64) : State := s.emit 8#4 data

/-- Every beat of a list emitted in order. -/
def State.emitAll (s : State) (bs : List Beat) : State := { s with pending := s.pending ++ bs }

/-- The response channel as the list of beats emitted so far (R34). -/
def State.beats (s : State) : List Beat := s.transferred ++ s.pending

/-- `raise Fault(c)` for a command word with this OP: fault entry (R157). ARG is not recorded, and nothing else is
saved. There is no return from it (R159). -/
def State.raise (s : State) (c : Cause) (op : Op) : State := { s with fault := some (c, op), busy := false }

/-- `if SEEDED = 0: raise Fault(NOT_SEEDED)`, then the rest of the command with the value STATE holds (R153). With
SEEDED = 1 and no value in STATE, which R27 excludes, the model stops by name. -/
def State.ifSeeded (s : State) (op : Op) (body : Lcg → Answer) : Answer :=
  if s.seeded then
    match s.state with
    | some x => body x
    | none => .fault .stateUnwritten
  else .next (s.raise .notSeeded op)

/-! ### The bytes of a beat -/

/-- The NB values that are produced, and DATA[63:8·NB] = 0 on a FILL beat (R67, I7). -/
def Beat.wf (b : Beat) : Bool :=
  b.nb == 8#4 || ((b.nb == 1#4 || b.nb == 2#4 || b.nb == 3#4 || b.nb == 4#4) && decide (b.data.toNat < 2 ^ (8 * b.nb.toNat)))

/-- The valid bytes of a FILL beat, DATA[7:0] first (R41, R42). A value beat (NB = 8) is outside its domain: R42 gives it
no byte order and leaves the order in which a host stores it to the host. On one, DATA[7:0] first is the model's own
(DESIGN CHOICE, log entry 11); no step and no statement uses it there. -/
def Beat.bytes (b : Beat) : List Byte := (List.range b.nb.toNat).map fun j => b.data.extractLsb' (8 * j) 8

/-- What the host's buffer holds after it has stored the bytes of these FILL beats in order from offset 0 (R41);
for a value beat as `Beat.bytes` says (log entry 11). -/
def bufferBytes (bs : List Beat) : List Byte := bs.flatMap Beat.bytes

/-! ### The pins (D2, R176) -/

/-- The host's pins now; with nothing more from the host they are all low. -/
def State.pins (s : State) : Pins := s.inputs.head?.getD {}

/-- `cmd_ready`: "1 exactly when rst = 0, BUSY = 0 and FAULT = 0" (R176). -/
def State.cmdReady (s : State) : Bool := !s.pins.rst && !s.busy && s.fault.isNone

/-- `rsp_valid`: a beat waits and `rst` is not asserted (R170, R176). -/
def State.rspValid (s : State) : Bool := !s.pins.rst && !s.pending.isEmpty

/-- `rsp_nb` and `rsp_data`: the oldest beat not yet transferred, while `rsp_valid` = 1 (R46, R176). -/
def State.rspBeat (s : State) : Option Beat := if s.rspValid then s.pending.head? else none

/-- What happens at one sample of the pins. -/
inductive Event where
  /-- Nothing transfers: the block is idle, or a word or a beat waits (R166, R176). -/
  | idle
  /-- `rst` is asserted (R170). -/
  | reset
  /-- A command word transfers (R176). -/
  | command (w : CommandWord)
  /-- A beat transfers (R176). -/
  | transfer
  deriving DecidableEq, Repr

/-- Which event the pins give (R170, R176). A command and a beat never transfer together, since a waiting beat keeps
BUSY = 1 (R29). -/
def State.event (s : State) : Event :=
  if s.pins.rst then .reset
  else
    match s.pins.cmd with
    | some w => if s.cmdReady then .command w else if s.rspValid && s.pins.rspReady then .transfer else .idle
    | none => if s.rspValid && s.pins.rspReady then .transfer else .idle

/-- The sample has been used. -/
def State.tick (s : State) : State := { s with inputs := s.inputs.tail }

/-- What `rst` leaves (R33, R170, R173): every piece of the block's state at its reset value, untransferred beats
discarded; the beats already transferred stay with the host, and the host goes on. -/
def State.hardReset (s : State) : State :=
  { State.reset with transferred := s.transferred, inputs := s.inputs }

/-- A command word is accepted: BUSY becomes 1 (R29). -/
def State.accept (s : State) : State := { s with busy := true }

/-- The oldest waiting beat goes to the host (R46, R176). -/
def State.transferBeat (s : State) : State :=
  match s.pending with
  | [] => s
  | b :: rest => { s with pending := rest, transferred := s.transferred ++ [b] }

/-- BUSY returns to 0 when the command has no beat left to transfer (R29). -/
def State.settle (s : State) : State := { s with busy := s.busy && !s.pending.isEmpty }

/-- Settle the next state of an answer. -/
def settleAnswer : Answer → Answer
  | .next s => .next s.settle
  | .fault r => .fault r
  | .refused r => .refused r

/-- One command word at the head of the host's list, presented on the command channel (R60, D2). -/
def State.present (s : State) (w : CommandWord) : State := { s with inputs := { cmd := some w } :: s.inputs }

end Sys2Proof.Machine
end

