-- ==== Sys2Proof/Machine/Operands.lean ====
section
/-! DEFINITION. The argument checks (R151, R152), and how the value of an operand is used: the chunks of FILL (R100)
and the two paths of the bounded sampler (R130, R131). -/

namespace Sys2Proof.Machine

/-- STEP's argument check holds: b > 48 (R93, R151). -/
def stepBitsBad (bits : Nat) : Bool := decide (Config.stepMax < bits)

/-- The bound's argument check holds: sval(m) ≤ 0 (R131, R152). -/
def boundBad (m : Word32) : Bool := decide (m.toInt ≤ 0)

/-! ### FILL -/

/-- ⌈n/4⌉, the number of chunks of an n-byte buffer (R100). -/
def fillChunks (n : Nat) : Nat := (n + 3) / 4

/-- The beat of a chunk of `k` bytes, 1 ≤ k ≤ 4: NB = k, DATA = zext_64(w[8k-1:0]) (R100). -/
def fillBeat (k : Nat) (w : Word32) : Beat := ⟨BitVec.ofNat 4 k, (w.setWidth (8 * k)).setWidth 64⟩

/-- The loop of R100 after `c` passes over an n-byte buffer: the beats emitted and the state. The pass with i = 4c bytes
done draws `Next(32)` and emits min(4, n - i) bytes. -/
def fillLoop (n : Nat) (x : Lcg) : (c : Nat) → List Beat × Lcg
  | 0 => ([], x)
  | c + 1 =>
    let (bs, y) := fillLoop n x c
    let (w, y') := draw 32 y
    (bs ++ [fillBeat (min 4 (n - 4 * c)) w], y')

/-! ### The bounded sampler -/

/-- `IsPow2(m)`: uval(m) = 2^k for some k (R130); k < 32 for a 32-bit m. -/
def isPow2 (m : Word32) : Bool := (List.range 32).any fun k => m.toNat == 2 ^ k

/-- The power-of-two path: (sext_64(m) *_64 sext_64(r) >>s 31)[31:0] (R131). -/
def scale (m r : Word32) : Word32 := ((m.signExtend 64 * r.signExtend 64).sshiftRight 31).setWidth 32

/-- `val`: uval(bits) mod uval(m) (R131). -/
def residue (m bits : Word32) : Word32 := BitVec.ofNat 32 (bits.toNat % m.toNat)

/-- The draw is accepted: sval(t) ≥ 0 for t = (bits - val) + (m - 1) in 32-bit wrapping arithmetic (R131). -/
def accepted (m bits : Word32) : Bool := decide (0 ≤ ((bits - residue m bits) + (m - 1#32)).toInt)

/-- One pass of the rejection loop from state `x`: the state after its draw, and the result if the draw is accepted
(R131). -/
def samplePass (m : Word32) (x : Lcg) : Option Word32 × Lcg :=
  let (bits, x') := draw 31 x
  (if accepted m bits then some (residue m bits) else none, x')

/-- `loop ... exit loop` (R13) on fuel: passes from state `x` until one has a result; that result with the state after
its pass, or none when the fuel ends first. -/
def loopUntil (pass : Lcg → Option Word32 × Lcg) : (fuel : Nat) → Lcg → Option (Word32 × Lcg)
  | 0, _ => none
  | fuel + 1, x =>
    match pass x with
    | (some res, x') => some (res, x')
    | (none, x') => loopUntil pass fuel x'

/-- The rejection loop (R131, R134). -/
def rejectionLoop (m : Word32) (fuel : Nat) (x : Lcg) : Option (Word32 × Lcg) := loopUntil (samplePass m) fuel x

/-- The sampler after its checks: one draw scaled for a power of two, else the loop (R131). -/
def sample (m : Word32) (x : Lcg) : Option (Word32 × Lcg) :=
  if isPow2 m then
    let (r, x') := draw 31 x
    some (scale m r, x')
  else rejectionLoop m Config.samplerFuel x

end Sys2Proof.Machine
end

