-- ==== Sys2Proof/Machine/Bounded.lean ====
section
/-! DEFINITION. BOUNDI32 and BOUNDU32, the bounded-integer rejection sampler (43_bounded.md). -/

namespace Sys2Proof.Machine

/-- What both bounds do, with the OP a fault records (R131, R135): BOUND_NONPOS before any advance and before
NOT_SEEDED, else one value beat with the sampled integer. -/
def State.bounded (s : State) (op : Op) (m : Word32) : Answer :=
  if boundBad m then .next (s.raise .boundNonpos op)
  else
    s.ifSeeded op fun x =>
      match sample m x with
      | some (res, x') => .next ((s.writeState x').emitValue (res.setWidth 64))
      | none => .fault .samplerExhausted

/-- BOUNDI32 (R131): an integer in [0, max), max read as signed. -/
def execBoundi32 (max : Word32) (s : State) : Answer := s.bounded opBoundi32 max

/-- BOUNDU32 (R135): "exactly the pseudocode of rule R131"; max in [2^31, 2^32) is rejected. FOP records 0x21. -/
def execBoundu32 (max : Word32) (s : State) : Answer := s.bounded opBoundu32 max

end Sys2Proof.Machine
end

