-- ==== Sys2Proof/Machine/StateManagement.lean ====
section
/-! DEFINITION. SEED and GETSEED (40_state_mgmt.md). -/

namespace Sys2Proof.Machine

/-- SEED (R80): no check, STATE <- (seed ^ MULTIPLIER)[47:0], SEEDED <- 1, no beat, no advance. -/
def execSeed (seed : Word64) (s : State) : Answer :=
  .next (s.writeState (scramble seed)).setSeeded

/-- GETSEED (R82): the raw current state, zero-extended; STATE is not changed. -/
def execGetseed (s : State) : Answer :=
  s.ifSeeded opGetseed fun x => .next (s.emitValue (x.setWidth 64))

end Sys2Proof.Machine
end

