-- ==== Sys2Proof/Machine/StepCommand.lean ====
section
/-! DEFINITION. STEP (41_step.md). -/

namespace Sys2Proof.Machine

/-- STEP (R93): STEP_BITS when b > 48, before any advance and before NOT_SEEDED; else the signed 32-bit word of
`Next(b)`, sign-extended. -/
def execStep (bits : Nat) (s : State) : Answer :=
  if stepBitsBad bits then .next (s.raise .stepBits opStep)
  else
    s.ifSeeded opStep fun x =>
      let (w, x') := draw bits x
      .next ((s.writeState x').emitValue (w.signExtend 64))

end Sys2Proof.Machine
end

