-- ==== Sys2Proof/Machine/TypedOutput.lean ====
section
/-! DEFINITION. FILL, NEXTI32, NEXTU32, NEXTI64, NEXTU64, NEXTBOOL, NEXTF32, NEXTF64 and the two conversions
(42_typed_output.md). -/

namespace Sys2Proof.Machine

/-! ### Conversions -/

/-- The index of the highest 1 bit of `v` among bits `i` down to 0; 0 when there is none (R106, R108 ask it of v ≠ 0). -/
def highestBit {w : Nat} (v : BitVec w) : Nat → Nat
  | 0 => 0
  | i + 1 => if v.getLsbD (i + 1) then i + 1 else highestBit v i

/-- `F32(v)`, the binary32 pattern of v / 2^24 (R106). -/
def f32 (v : BitVec 24) : Word32 :=
  if v = 0#24 then 0#32
  else
    let e := highestBit v 23
    0#1 ++ BitVec.ofNat 8 (e + 103) ++ (v.setWidth 32 <<< (23 - e)).extractLsb' 0 23

/-- `F64(v)`, the binary64 pattern of v / 2^53 for v < 2^53 (R108). -/
def f64 (v : Word64) : Word64 :=
  if v = 0#64 then 0#64
  else
    let e := highestBit v 52
    0#1 ++ BitVec.ofNat 11 (e + 970) ++ (v <<< (52 - e)).extractLsb' 0 52

/-- The 64-bit value of two words, high word first: (sext_64(hi) << 32) +_64 sext_64(lo) (R103). -/
def combine64 (hi lo : Word32) : Word64 := (hi.signExtend 64 <<< 32) + lo.signExtend 64

/-- The 53-bit value of NEXTF64: (zext_64(hi) << 27) +_64 zext_64(lo) (R109). -/
def combine53 (hi lo : Word32) : Word64 := (hi.setWidth 64 <<< 27) + lo.setWidth 64

/-! ### Commands -/

/-- FILL (R100): ⌈n/4⌉ words, one beat each, little-endian, the last one short when n is no multiple of 4. -/
def execFill (n : Nat) (s : State) : Answer :=
  s.ifSeeded opFill fun x =>
    let (bs, x') := fillLoop n x (fillChunks n)
    .next ((s.writeState x').emitAll bs)

/-- NEXTI32 (R101): the word of `Next(32)`, sign-extended. -/
def execNexti32 (s : State) : Answer :=
  s.ifSeeded opNexti32 fun x =>
    let (w, x') := draw 32 x
    .next ((s.writeState x').emitValue (w.signExtend 64))

/-- NEXTU32 (R102): the word of `Next(32)`, zero-extended. -/
def execNextu32 (s : State) : Answer :=
  s.ifSeeded opNextu32 fun x =>
    let (w, x') := draw 32 x
    .next ((s.writeState x').emitValue (w.setWidth 64))

/-- NEXTI64 (R103): two advances, high word first, combined by wrapping addition. -/
def execNexti64 (s : State) : Answer :=
  s.ifSeeded opNexti64 fun x =>
    let (hi, x') := draw 32 x
    let (lo, x'') := draw 32 x'
    .next ((s.writeState x'').emitValue (combine64 hi lo))

/-- NEXTU64 (R104): the same 64-bit vector as NEXTI64, which the host reads as unsigned. -/
def execNextu64 (s : State) : Answer :=
  s.ifSeeded opNextu64 fun x =>
    let (hi, x') := draw 32 x
    let (lo, x'') := draw 32 x'
    .next ((s.writeState x'').emitValue (combine64 hi lo))

/-- NEXTBOOL (R105): bit 0 of `Next(1)`. -/
def execNextbool (s : State) : Answer :=
  s.ifSeeded opNextbool fun x =>
    let (w, x') := draw 1 x
    .next ((s.writeState x').emitValue ((w.extractLsb' 0 1).setWidth 64))

/-- NEXTF32 (R107): the binary32 pattern of step(24) / 2^24, zero-extended. -/
def execNextf32 (s : State) : Answer :=
  s.ifSeeded opNextf32 fun x =>
    let (w, x') := draw 24 x
    .next ((s.writeState x').emitValue ((f32 (w.extractLsb' 0 24)).setWidth 64))

/-- NEXTF64 (R109): the binary64 pattern of (step(26) · 2^27 + step(27)) / 2^53, two advances. -/
def execNextf64 (s : State) : Answer :=
  s.ifSeeded opNextf64 fun x =>
    let (hi, x') := draw 26 x
    let (lo, x'') := draw 27 x'
    .next ((s.writeState x'').emitValue (f64 (combine53 hi lo)))

end Sys2Proof.Machine
end

