-- ==== Sys2Proof/Machine/Dispatch.lean ====
section
/-! DEFINITION. One arm per command of R62, each one call of its meaning. -/

namespace Sys2Proof.Machine

def exec (i : Instr) (s : State) : Host.Outcome State Fault Refusal :=
  match i with
  | .seed seed => Sys2Proof.Machine.execSeed seed s
  | .getseed => Sys2Proof.Machine.execGetseed s
  | .step bits => Sys2Proof.Machine.execStep bits s
  | .nexti32 => Sys2Proof.Machine.execNexti32 s
  | .nextu32 => Sys2Proof.Machine.execNextu32 s
  | .nexti64 => Sys2Proof.Machine.execNexti64 s
  | .nextu64 => Sys2Proof.Machine.execNextu64 s
  | .nextbool => Sys2Proof.Machine.execNextbool s
  | .nextf32 => Sys2Proof.Machine.execNextf32 s
  | .nextf64 => Sys2Proof.Machine.execNextf64 s
  | .boundi32 max => Sys2Proof.Machine.execBoundi32 max s
  | .boundu32 max => Sys2Proof.Machine.execBoundu32 max s
  | .fill n => Sys2Proof.Machine.execFill n s

end Sys2Proof.Machine
end

