-- ==== Sys2Proof/Machine/Step.lean ====
section
/-! DEFINITION. One step: what one sample of the host's pins does to the block (R176, R177). -/

namespace Sys2Proof.Machine

/-- One step. `rst` resets; a transferred command word is accepted and runs as one atomic step producing all its beats
(R45, D27), an illegal one entering the fault state (R154); a transferred beat goes to the host; otherwise nothing
changes (R166). BUSY falls when no beat is left (R29). -/
def step (s : State) : Host.Outcome State Fault Refusal :=
  match s.event with
  | .idle => .next s.tick
  | .reset => .next s.tick.hardReset
  | .transfer => .next s.tick.transferBeat.settle
  | .command w =>
    match decode w with
    | .ok i => settleAnswer (exec i s.tick.accept)
    | .error (.illegalOp op) => .next (s.tick.accept.raise .illegalOp op).settle

/-- `s` with the instruction of `nbits` bits `w` (numbered as the opcode table numbers them) as the host's next word on
the command channel. It runs at the next step whenever the block accepts a command (BUSY = 0 and FAULT = 0, R176), so
from `State.reset` too. -/
def State.withFetchWord (s : State) (nbits w : Nat) : State :=
  s.present (BitVec.ofNat 72 (w % 2 ^ nbits))

end Sys2Proof.Machine
end

