-- ==== Sys2Proof/Machine/Assembler.lean ====
section
/-! DEFINITION. The assembler of R69 and the pseudo-instructions of R70: from a line of text to what the host does. The
text is a list of characters. What R69 does not say about the text (separators, letter case, empty lines, the digits of
`.word`) is the model's choice (log entry 7). -/

namespace Sys2Proof.Machine

/-! ### Mnemonics and operands -/

/-- The mnemonics of R62 and the pseudo-instructions of R70. -/
inductive Mnemonic where
  | seed | getseed | step | nexti32 | nextu32 | nexti64 | nextu64 | nextbool | nextf32 | nextf64
  | boundi32 | boundu32 | fill
  | setseed | construct | nextbits | nextbytes | nextint | nextlong
  deriving DecidableEq, Repr

/-- The spelling of each mnemonic (R62, R70). -/
def mnemonicTable : List (List Char × Mnemonic) :=
  [(['S', 'E', 'E', 'D'], .seed), (['G', 'E', 'T', 'S', 'E', 'E', 'D'], .getseed), (['S', 'T', 'E', 'P'], .step),
   (['N', 'E', 'X', 'T', 'I', '3', '2'], .nexti32), (['N', 'E', 'X', 'T', 'U', '3', '2'], .nextu32),
   (['N', 'E', 'X', 'T', 'I', '6', '4'], .nexti64), (['N', 'E', 'X', 'T', 'U', '6', '4'], .nextu64),
   (['N', 'E', 'X', 'T', 'B', 'O', 'O', 'L'], .nextbool), (['N', 'E', 'X', 'T', 'F', '3', '2'], .nextf32),
   (['N', 'E', 'X', 'T', 'F', '6', '4'], .nextf64), (['B', 'O', 'U', 'N', 'D', 'I', '3', '2'], .boundi32),
   (['B', 'O', 'U', 'N', 'D', 'U', '3', '2'], .boundu32), (['F', 'I', 'L', 'L'], .fill)] ++
  [(['S', 'E', 'T', 'S', 'E', 'E', 'D'], .setseed), (['C', 'O', 'N', 'S', 'T', 'R', 'U', 'C', 'T'], .construct),
   (['N', 'E', 'X', 'T', 'B', 'I', 'T', 'S'], .nextbits), (['N', 'E', 'X', 'T', 'B', 'Y', 'T', 'E', 'S'], .nextbytes),
   (['N', 'E', 'X', 'T', 'I', 'N', 'T'], .nextint), (['N', 'E', 'X', 'T', 'L', 'O', 'N', 'G'], .nextlong)]

/-- One assembly line: a mnemonic with or without an integer operand, or `.word OP:ARG` (R69). -/
inductive AsmLine where
  | command (m : Mnemonic) (operand : Option Int)
  | word (op arg : Nat)
  deriving DecidableEq, Repr

/-- An operand inside its stated range, as the two's-complement pattern of `width` bits in ARG (R69): the bits above
`width` are 0. -/
def encodeOperand (lo hi : Int) (width : Nat) (v : Int) : Option Word64 :=
  if lo ≤ v ∧ v ≤ hi then some ((BitVec.ofInt width v).setWidth 64) else none

/-- The command word of a command with an operand, if the operand is in range (R69). -/
def withOperand (op : Op) (lo hi : Int) (width : Nat) : Option Int → Option CommandWord
  | none => none
  | some v => (encodeOperand lo hi width v).map (commandWord op)

/-- The command word of a command without operand: ARG = 0 (R69). -/
def withoutOperand (op : Op) : Option Int → Option CommandWord
  | none => some (commandWord op 0)
  | some _ => none

/-- The pins of a sample that presents a word, and of one that asserts `rst`. -/
def Pins.present (w : CommandWord) : Pins := { cmd := some w }

/-- A sample that asserts `rst` (R170). -/
def Pins.reset : Pins := { rst := true }

/-- What the host does for a mnemonic and its operand: one command word presented, and for CONSTRUCT a reset first
(R69, R70). None: the assembler refuses the line. -/
def assembleCommand : Mnemonic → Option Int → Option (List Pins)
  | .seed, v => (withOperand opSeed (-2 ^ 63) (2 ^ 64 - 1) 64 v).map fun w => [Pins.present w]
  | .getseed, v => (withoutOperand opGetseed v).map fun w => [Pins.present w]
  | .step, v => (withOperand opStep 0 (2 ^ 64 - 1) 64 v).map fun w => [Pins.present w]
  | .nexti32, v => (withoutOperand opNexti32 v).map fun w => [Pins.present w]
  | .nextu32, v => (withoutOperand opNextu32 v).map fun w => [Pins.present w]
  | .nexti64, v => (withoutOperand opNexti64 v).map fun w => [Pins.present w]
  | .nextu64, v => (withoutOperand opNextu64 v).map fun w => [Pins.present w]
  | .nextbool, v => (withoutOperand opNextbool v).map fun w => [Pins.present w]
  | .nextf32, v => (withoutOperand opNextf32 v).map fun w => [Pins.present w]
  | .nextf64, v => (withoutOperand opNextf64 v).map fun w => [Pins.present w]
  | .boundi32, v => (withOperand opBoundi32 (-2 ^ 31) (2 ^ 31 - 1) 32 v).map fun w => [Pins.present w]
  | .boundu32, v => (withOperand opBoundu32 0 (2 ^ 32 - 1) 32 v).map fun w => [Pins.present w]
  | .fill, v => (withOperand opFill 0 (2 ^ 64 - 1) 64 v).map fun w => [Pins.present w]
  | .setseed, v => (withOperand opSeed (-2 ^ 63) (2 ^ 64 - 1) 64 v).map fun w => [Pins.present w]
  | .construct, v => (withOperand opSeed (-2 ^ 63) (2 ^ 64 - 1) 64 v).map fun w => [Pins.reset, Pins.present w]
  | .nextbits, v => (withOperand opStep 0 (2 ^ 64 - 1) 64 v).map fun w => [Pins.present w]
  | .nextbytes, v => (withOperand opFill 0 (2 ^ 64 - 1) 64 v).map fun w => [Pins.present w]
  | .nextint, v => (withoutOperand opNexti32 v).map fun w => [Pins.present w]
  | .nextlong, v => (withoutOperand opNexti64 v).map fun w => [Pins.present w]

/-- What the host does for a line. `.word` gives any word whose two fields fit (R69). -/
def assemble : AsmLine → Option (List Pins)
  | .command m v => assembleCommand m v
  | .word op arg =>
    if op < 2 ^ 8 ∧ arg < 2 ^ 64 then
      some [Pins.present (commandWord (BitVec.ofNat 8 op) (BitVec.ofNat 64 arg))]
    else none

/-! ### Text -/

/-- The value of a digit; letters of either case are digits above 9. -/
def digit (c : Char) : Option Nat :=
  if '0' ≤ c ∧ c ≤ '9' then some (c.toNat - '0'.toNat)
  else if 'a' ≤ c ∧ c ≤ 'f' then some (c.toNat - 'a'.toNat + 10)
  else if 'A' ≤ c ∧ c ≤ 'F' then some (c.toNat - 'A'.toNat + 10)
  else none

/-- The value of the digits after those that gave `acc`, in this base; none at a character that is no digit. -/
def digitsFrom (base : Nat) : Nat → List Char → Option Nat
  | acc, [] => some acc
  | acc, c :: cs =>
    match digit c with
    | some d => if d < base then digitsFrom base (base * acc + d) cs else none
    | none => none

/-- A number needs at least one digit. -/
def digits (base : Nat) : List Char → Option Nat
  | [] => none
  | c :: cs => digitsFrom base 0 (c :: cs)

/-- "decimal, or hexadecimal with prefix `0x`" (R69). -/
def parseNat : List Char → Option Nat
  | '0' :: 'x' :: cs => digits 16 cs
  | cs => digits 10 cs

/-- "with an optional leading `-`" (R69). -/
def parseInt : List Char → Option Int
  | '-' :: cs => (parseNat cs).map fun n => -(n : Int)
  | cs => (parseNat cs).map fun n => (n : Int)

/-- A space or a tab separates. -/
def isBlank (c : Char) : Bool := c == ' ' || c == '\t'

/-- The words of a line, split at blanks; `cur` is the word being read, `acc` the words before it, the last first. -/
def wordsFrom : (cur : List Char) → (acc : List (List Char)) → List Char → List (List Char)
  | cur, acc, [] => (if cur.isEmpty then acc else cur.reverse :: acc).reverse
  | cur, acc, c :: cs =>
    if isBlank c then wordsFrom [] (if cur.isEmpty then acc else cur.reverse :: acc) cs
    else wordsFrom (c :: cur) acc cs

/-- The words of a line before its comment: "`;` starts a comment to the end of the line" (R69). -/
def lineWords (line : List Char) : List (List Char) := wordsFrom [] [] (line.takeWhile fun c => c != ';')

/-- The mnemonic a word spells. -/
def mnemonicOf (word : List Char) : Option Mnemonic := (mnemonicTable.find? fun row => row.1 == word).map fun row => row.2

/-- `OP:ARG`, "both fields in hexadecimal" (R69). How the digits of a field are written is the model's choice (log entry 7,
DESIGN CHOICE): no `0x`, one digit or more, and any number of them whose value fits the field (`assemble`). -/
def parseWord (word : List Char) : Option AsmLine :=
  match digits 16 (word.takeWhile fun c => c != ':'), (word.dropWhile fun c => c != ':').tail with
  | some op, argText => (digits 16 argText).map fun arg => .word op arg
  | none, _ => none

/-- A line of text (R69): none inside when it holds no command, none outside when the assembler refuses it. -/
def parseLine (line : List Char) : Option (Option AsmLine) :=
  match lineWords line with
  | [] => some none
  | [word] => (mnemonicOf word).map fun m => some (.command m none)
  | [word, operand] =>
    if word = ['.', 'w', 'o', 'r', 'd'] then (parseWord operand).map some
    else
      match mnemonicOf word, parseInt operand with
      | some m, some v => some (some (.command m (some v)))
      | some _, none => none
      | none, _ => none
  | _ :: _ :: _ :: _ => none

/-- What the host does for a line of text. -/
def assembleLine (line : List Char) : Option (List Pins) :=
  match parseLine line with
  | none => none
  | some none => some []
  | some (some l) => assemble l

end Sys2Proof.Machine
end

