-- ==== Sys2Proof/Machine/Platform.lean ====
section
/-! DEFINITION. Several instances on one chip (R8, R163). Each has its own STATE, STATUS, command channel and response
channel, which is to say its own `State`; the parameter N_INST is how many there are. -/

namespace Sys2Proof.Machine

/-- The instances of a chip, in any fixed order; "There is no instance identifier" (R163). -/
abbrev Chip := List State

/-- A chip of `nInst` instances after reset (R33). -/
def Chip.reset (nInst : Nat) : Chip := List.replicate nInst State.reset

/-- Instance `k` makes one step and the others make none. A parallel run is a list of such steps, in an order that
"no coordination required" leaves to the platform (R163). Where there is no instance `k`, nothing happens. -/
def Chip.stepInstance (c : Chip) (k : Nat) : Host.Outcome Chip Fault Refusal :=
  match getElem? c k with
  | none => .next c
  | some s =>
    match step s with
    | .next t => .next (c.set k t)
    | .fault r => .fault r
    | .refused r => .refused r

end Sys2Proof.Machine
end

