-- ==== Sys2Proof/Safety.lean ====
section
/-! DEFINITION. The terms claims are stated in: the invariant of the state, which faults can be recorded, when a run has
entered no fault (R158), and runs of commands. -/

namespace Sys2Proof.Machine

/-- What every state of the model satisfies: SEEDED = 1 exactly when STATE holds a value (R27, R34); BUSY = 1 exactly when
a beat waits, which is the model's own (DESIGN CHOICE, log entries 2 and 3, allowed by R29 and D27); a faulted block has no
beat waiting (R155, R157); every beat has a legal format (R67). -/
structure State.Inv (s : State) : Prop where
  seeded_iff : s.seeded = s.state.isSome
  busy_iff : s.busy = !s.pending.isEmpty
  fault_idle : s.fault.isSome = true → s.pending = []
  beats_wf : ∀ b ∈ s.beats, b.wf = true

/-- The OP values recorded with a cause (R150, R154, R157): the commands that raise it, or an unassigned OP; and a block
that reports NOT_SEEDED is not seeded (R153). -/
def FaultRecord (seeded : Bool) : Cause × Op → Prop
  | (.stepBits, op) => op = opStep
  | (.boundNonpos, op) => op = opBoundi32 ∨ op = opBoundu32
  | (.notSeeded, op) => op ∈ assignedOps ∧ op ≠ opSeed ∧ seeded = false
  | (.illegalOp, op) => op ∉ assignedOps

/-- The recorded fault, if any, is one that can be entered. -/
def State.FaultInv (s : State) : Prop := ∀ r, s.fault = some r → FaultRecord s.seeded r

/-- No fault has been entered: the premise of a claim about a command sequence (R158). -/
def State.noFault (s : State) : Bool := s.fault.isNone

/-- Commands run one after the other as `exec` runs them, each accepted when the one before has completed (R46). A
command that enters a fault ends the run in the faulted state: the block accepts nothing more (R158). -/
def runCommands : List Instr → State → Answer
  | [], s => .next s
  | i :: is, s =>
    if s.noFault then
      match exec i s with
      | .next t => runCommands is t
      | .fault r => .fault r
      | .refused r => .refused r
    else .next s

/-- The beats a state has more than an earlier one. -/
def State.newBeats (before after : State) : List Beat := after.beats.drop before.beats.length

/-- The cause a legal command reports first, with SEEDED as given: its argument check, then NOT_SEEDED (R150, R156). -/
def firstCause (i : Instr) (seeded : Bool) : Option Cause :=
  match i with
  | .seed _ => none
  | .step bits => if 48 < bits then some .stepBits else if seeded then none else some .notSeeded
  | .boundi32 m => if m.toInt ≤ 0 then some .boundNonpos else if seeded then none else some .notSeeded
  | .boundu32 m => if m.toInt ≤ 0 then some .boundNonpos else if seeded then none else some .notSeeded
  | .getseed => if seeded then none else some .notSeeded
  | .nexti32 => if seeded then none else some .notSeeded
  | .nextu32 => if seeded then none else some .notSeeded
  | .nexti64 => if seeded then none else some .notSeeded
  | .nextu64 => if seeded then none else some .notSeeded
  | .nextbool => if seeded then none else some .notSeeded
  | .nextf32 => if seeded then none else some .notSeeded
  | .nextf64 => if seeded then none else some .notSeeded
  | .fill _ => if seeded then none else some .notSeeded

/-- How many times a successful command calls `Advance()`, where R178 fixes the number; none for a bound that is no
power of two, whose number is the index of the first accepted draw. -/
def fixedAdvances : Instr → Option Nat
  | .seed _ => some 0
  | .getseed => some 0
  | .step _ => some 1
  | .nexti32 => some 1
  | .nextu32 => some 1
  | .nexti64 => some 2
  | .nextu64 => some 2
  | .nextbool => some 1
  | .nextf32 => some 1
  | .nextf64 => some 2
  | .boundi32 m => if ∃ k < 32, m.toNat = 2 ^ k then some 1 else none
  | .boundu32 m => if ∃ k < 32, m.toNat = 2 ^ k then some 1 else none
  | .fill n => some ((n + 3) / 4)

/-- The beats FILL n emits from state `x`, as R100 gives them: ⌈n/4⌉ of them, the i-th with NB = min(4, n - 4i) and DATA
the low 8·NB bits of its word, zero above. -/
def fillBeatsOf (n : Nat) (x : Lcg) : List Beat :=
  (List.range ((n + 3) / 4)).map fun i =>
    ⟨BitVec.ofNat 4 (min 4 (n - 4 * i)),
     BitVec.ofNat 64 ((advances (i + 1) x).toNat / 2 ^ 16 % 2 ^ (8 * min 4 (n - 4 * i)))⟩

/-- The 31-bit word of the `j`-th draw (from 1) of a rejection loop that starts at `x` (R131). -/
def loopDraw (x : Lcg) (j : Nat) : Word32 := ((advances j x).extractLsb' 17 31).setWidth 32

/-- `t` of R131 for a draw: (bits - val) + (max - 1) in 32-bit wrapping arithmetic, with val = bits mod max. -/
def loopTest (m bits : Word32) : Word32 := (bits - bits % m) + (m - 1#32)

/-- Draw `j` (from 1) of a rejection loop that starts at `x` is its first accepted draw (R131, R134): `t` is not negative
as a signed 32-bit value, and it is negative for every draw before. At most one `j` is. -/
def FirstAccepted (m : Word32) (x : Lcg) (j : Nat) : Prop :=
  1 ≤ j ∧ 0 ≤ (loopTest m (loopDraw x j)).toInt ∧ ∀ i, 1 ≤ i → i < j → (loopTest m (loopDraw x i)).toInt < 0

/-- `k` is the number of `Advance()` calls of a successful command that starts at `x`, by the whole table of R178: the
fixed number, or for a bound that is no power of two the index of the first accepted draw. At most one `k` is. -/
def AdvancesBy (i : Instr) (x : Lcg) (k : Nat) : Prop :=
  match fixedAdvances i with
  | some n => k = n
  | none => ∃ m, (i = .boundi32 m ∨ i = .boundu32 m) ∧ FirstAccepted m x k

/-- The rational value of a binary32 pattern that is +0.0 or a normal number (R106's layout). -/
def binary32Value (p : Word32) : ℚ :=
  if p = 0#32 then 0
  else (-1) ^ (p.extractLsb' 31 1).toNat * (1 + (p.extractLsb' 0 23).toNat / 2 ^ 23) *
    2 ^ (((p.extractLsb' 23 8).toNat : ℤ) - 127)

/-- The rational value of a binary64 pattern that is +0.0 or a normal number (R108's layout). -/
def binary64Value (p : Word64) : ℚ :=
  if p = 0#64 then 0
  else (-1) ^ (p.extractLsb' 63 1).toNat * (1 + (p.extractLsb' 0 52).toNat / 2 ^ 52) *
    2 ^ (((p.extractLsb' 52 11).toNat : ℤ) - 1023)

end Sys2Proof.Machine
end

