-- ==== Sys2Proof/Certificates/Slice0/Obligations.lean ====
section
/-! DEFINITION. The statements for the provers. Each docstring names the rule of spec/ it states. OP values are written
as the spec's numbers, not as the model's names. -/

open Sys2Proof Sys2Proof.Machine

/-! ### Command words -/

/-- Decoding the encoding of any well-formed command gives it back, at every operand value (R60 to R63, R69). -/
def Obligations.DecodeEncode : Prop := ∀ i : Instr, i.wf = true → decode (encode i) = .ok i

/-- A word that decodes is, but for its ignored bits, the encoding of what it decodes to, which is well formed (R64):
the converse of the round trip. -/
def Obligations.EncodeDecode : Prop :=
  ∀ (w : CommandWord) (i : Instr), decode w = .ok i →
    i.wf = true ∧ (encode i).extractLsb' 64 8 = w.extractLsb' 64 8 ∧
      (encode i).extractLsb' 0 64 = w.extractLsb' 0 64 &&&
        (if w.extractLsb' 64 8 ∈ [0x01#8, 0x03#8, 0x30#8] then 0xFFFFFFFFFFFFFFFF#64
         else if w.extractLsb' 64 8 ∈ [0x20#8, 0x21#8] then 0x00000000FFFFFFFF#64 else 0#64)

/-- The opcode map (R62) with the operand forms (R63): which command each OP selects, with which operand; every other OP
selects none. -/
def Obligations.OpcodeMap : Prop :=
  ∀ (op : Op) (arg : Word64), decode (op ++ arg : BitVec 72) =
    if op = 0x01#8 then .ok (.seed arg)
    else if op = 0x02#8 then .ok .getseed
    else if op = 0x03#8 then .ok (.step arg.toNat)
    else if op = 0x10#8 then .ok .nexti32
    else if op = 0x11#8 then .ok .nextu32
    else if op = 0x12#8 then .ok .nexti64
    else if op = 0x13#8 then .ok .nextu64
    else if op = 0x14#8 then .ok .nextbool
    else if op = 0x15#8 then .ok .nextf32
    else if op = 0x16#8 then .ok .nextf64
    else if op = 0x20#8 then .ok (.boundi32 (arg.extractLsb' 0 32))
    else if op = 0x21#8 then .ok (.boundu32 (arg.extractLsb' 0 32))
    else if op = 0x30#8 then .ok (.fill arg.toNat)
    else .error (.illegalOp op)

/-- Words written out from R62 and R69, one per family, decode to the commands they stand for. -/
def Obligations.DecodeWords : Prop :=
  decode 0x01FFFFFFFFFFFFFFFF#72 = .ok (.seed 0xFFFFFFFFFFFFFFFF#64) ∧
  decode 0x030000000100000005#72 = .ok (.step 0x100000005) ∧
  decode 0x16000000000000000A#72 = .ok .nextf64 ∧
  decode 0x300000000000000007#72 = .ok (.fill 7) ∧
  decode 0x200000000100000005#72 = .ok (.boundi32 5#32) ∧
  decode 0x210000000080000000#72 = .ok (.boundu32 0x80000000#32) ∧
  decode 0x000000000000000000#72 = .error (.illegalOp 0x00#8)

/-- Ignored bits (R64): two words of the same OP that differ only in bits their form ignores (R63) behave identically,
whatever the state they are presented in. -/
def Obligations.IgnoredBits : Prop :=
  ∀ (s : State) (op : Op) (a b : Word64),
    (op ∈ [0x02#8, 0x10#8, 0x11#8, 0x12#8, 0x13#8, 0x14#8, 0x15#8, 0x16#8] ∨
      op ∈ [0x20#8, 0x21#8] ∧ a.extractLsb' 0 32 = b.extractLsb' 0 32) →
    step (s.present (op ++ a)) = step (s.present (op ++ b))

/-! ### The step, the pins and reset -/

/-- A command word on the channel while `rst` = 0, BUSY = 0 and FAULT = 0 that decodes to a command: the step is `exec`
of it after the acceptance (BUSY = 1, the sample used), and BUSY falls at the end exactly when no beat is left (R29,
R46, R176). Two things are the model's own: each step uses one sample of the host's pins (`inputs`, log entry 1, DESIGN
CHOICE), and the accepted command runs whole in the step that accepts it (log entry 2, DESIGN CHOICE, allowed by D27). -/
def Obligations.StepRunsDecoded : Prop :=
  ∀ (s : State) (w : CommandWord) (i : Instr),
    s.pins.rst = false → s.pins.cmd = some w → s.busy = false → s.fault = none → decode w = .ok i →
    step s =
      match exec i { s with inputs := s.inputs.tail, busy := true } with
      | .next t => .next { t with busy := t.busy && !t.pending.isEmpty }
      | .fault r => .fault r
      | .refused r => .refused r

/-- An accepted word whose OP is none of the thirteen enters the fault state with ILLEGAL_OP (R65, R154), whatever ARG
and whatever SEEDED: STATE does not change and no beat is emitted. Two things are the model's own: the
step uses one sample of the host's pins (`inputs`, log entry 1, DESIGN CHOICE), and the fault is entered in the step that
accepts the word (log entry 2, DESIGN CHOICE, allowed by D27). -/
def Obligations.IllegalOpFaults : Prop :=
  ∀ (s : State) (op : Op) (arg : Word64),
    op ∉ [0x01#8, 0x02#8, 0x03#8, 0x10#8, 0x11#8, 0x12#8, 0x13#8, 0x14#8, 0x15#8, 0x16#8, 0x20#8, 0x21#8, 0x30#8] →
    s.pins.rst = false → s.pins.cmd = some (op ++ arg) → s.busy = false → s.fault = none →
    step s = .next { s with inputs := s.inputs.tail, fault := some (.illegalOp, op), busy := false }

/-- `cmd_ready` (R176): 1 exactly when `rst` = 0, BUSY = 0 and FAULT = 0, read from the STATUS word of R26; and while it
is 0 and `rst` = 0 a presented word is not executed: STATE, SEEDED, the recorded fault and the beats emitted so far
stay. -/
def Obligations.CommandReady : Prop :=
  (∀ s : State, s.cmdReady = true ↔
    s.pins.rst = false ∧ s.status.getLsbD 2 = false ∧ s.status.getLsbD 1 = false) ∧
  ∀ s : State, s.cmdReady = false → s.pins.rst = false →
    ∃ t, step s = .next t ∧ t.state = s.state ∧ t.seeded = s.seeded ∧ t.fault = s.fault ∧ t.beats = s.beats

/-- Back-pressure (R176): while the host holds `rsp_ready` = 0 the block waits, BUSY stays 1, no command is accepted and
the waiting beat is held. That the step uses one sample of the host's pins (`inputs`) is the model's own clause (log
entry 1, DESIGN CHOICE). -/
def Obligations.BackPressure : Prop :=
  ∀ s : State, s.pins.rst = false → s.busy = true → s.pins.rspReady = false →
    step s = .next { s with inputs := s.inputs.tail }

/-- A beat transfer (R29, R46, R176): the oldest waiting beat is the one presented and the one that goes to the host;
BUSY returns to 0 with the last one. That the step uses one sample of the host's pins (`inputs`) and moves one beat is
the model's own (log entries 1 and 2, DESIGN CHOICE), and so is the record `transferred` (log entry 6, DEDUCED). -/
def Obligations.BeatTransfer : Prop :=
  ∀ (s : State) (b : Beat) (rest : List Beat),
    s.pins.rst = false → s.busy = true → s.pins.rspReady = true → s.pending = b :: rest →
    s.rspBeat = some b ∧ step s = .next { s with
      inputs := s.inputs.tail, pending := rest, transferred := s.transferred ++ [b], busy := !rest.isEmpty }

/-- Between commands the block keeps STATE and STATUS when the host neither sends a command nor asserts reset (R166).
That the step uses one sample of the host's pins (`inputs`) is the model's own clause (log entry 1, DESIGN CHOICE). -/
def Obligations.IdleKeeps : Prop :=
  ∀ s : State, s.pins.rst = false → s.pins.cmd = none → s.pending = [] →
    step s = .next { s with inputs := s.inputs.tail }

/-- Reset at any time (R170, R173), also while BUSY = 1 or FAULT = 1: no command is accepted and no beat presented;
every piece of state has its reset value of R33, beats not yet transferred are discarded, beats already transferred stay
with the host (R173), which the model keeps as `transferred` (log entry 6, DEDUCED). That the host's later samples stay
and this one is used is the model's own: `inputs` is its field (log entry 1, DESIGN CHOICE; log entry 6). -/
def Obligations.HardwareReset : Prop :=
  ∀ s : State, s.pins.rst = true →
    s.cmdReady = false ∧ s.rspValid = false ∧
    ∃ t, step s = .next t ∧ t.state = none ∧ t.seeded = false ∧ t.busy = false ∧ t.fault = none ∧ t.pending = [] ∧
      t.status = 0x0000#16 ∧ t.transferred = s.transferred ∧ t.inputs = s.inputs.tail

/-- The reset values the spec gives (R33). -/
def Obligations.ResetValues : Prop :=
  State.reset.state = none ∧ State.reset.seeded = false ∧ State.reset.busy = false ∧ State.reset.fault = none ∧
    State.reset.pending = [] ∧ State.reset.status = 0x0000#16

/-- The halted state (R158): over any number of steps in which the host does not assert `rst`, whatever words it
presents, the block changes neither STATE, SEEDED, CAUSE, FOP nor the beats emitted so far, and `cmd_ready` stays 0. -/
def Obligations.HaltedStays : Prop :=
  ∀ (k : Nat) (s : State), s.fault.isSome = true → (∀ p ∈ s.inputs.take k, p.rst = false) →
    ∃ t, core.run k s = .next t ∧ t.state = s.state ∧ t.seeded = s.seeded ∧ t.fault = s.fault ∧ t.beats = s.beats ∧
      t.cmdReady = false

/-- Return from fault (R159): the only way out of the halted state is reset, which discards STATE; a second fault never
replaces the first (R28). -/
def Obligations.OnlyResetLeavesFault : Prop :=
  ∀ (s t : State), s.fault.isSome = true → step s = .next t → t.fault ≠ s.fault →
    s.pins.rst = true ∧ t.fault = none ∧ t.state = none ∧ t.seeded = false

/-- STATUS: the place of every field (R26), bit 3 reading 0 (R30), the code of every cause (R150), CAUSE and FOP 0 while
FAULT = 0 (R26, R28). -/
def Obligations.StatusLayout : Prop :=
  ∀ s : State,
    s.status.getLsbD 0 = s.seeded ∧ s.status.getLsbD 1 = s.fault.isSome ∧ s.status.getLsbD 2 = s.busy ∧
    s.status.getLsbD 3 = false ∧
    s.status.extractLsb' 4 4 =
      (match s.fault with
       | none => 0#4
       | some (.stepBits, _) => 1#4
       | some (.boundNonpos, _) => 2#4
       | some (.notSeeded, _) => 3#4
       | some (.illegalOp, _) => 4#4) ∧
    s.status.extractLsb' 8 8 = (match s.fault with | none => 0#8 | some (_, op) => op)

/-- A host that decodes the STATUS word gets back exactly the fields (R26, I6, I8). -/
def Obligations.StatusDecodes : Prop :=
  ∀ s : State, decodeStatus s.status = some { seeded := s.seeded, busy := s.busy, fault := s.fault }

/-! ### SEED and GETSEED -/

/-- SEED (R80): its encoding, and for every seed and every state the next state: STATE = (seed XOR MULTIPLIER)[47:0],
SEEDED = 1, no beat, no advance, nothing else changed. -/
def Obligations.Seed : Prop :=
  ∀ (v : Word64) (s : State), decode (0x01#8 ++ v) = .ok (.seed v) ∧
    exec (.seed v) s =
      .next { s with state := some ((v ^^^ 0x00000005DEECE66D#64).extractLsb' 0 48), seeded := true }

/-- GETSEED (R82): its encoding; NOT_SEEDED while SEEDED = 0; else one beat with STATE zero-extended, STATE unchanged. -/
def Obligations.Getseed : Prop :=
  ∀ (arg : Word64) (s : State), decode (0x02#8 ++ arg) = .ok .getseed ∧
    (s.seeded = false → exec .getseed s = .next { s with fault := some (.notSeeded, 0x02#8), busy := false }) ∧
    ∀ x, s.seeded = true → s.state = some x →
      exec .getseed s = .next { s with pending := s.pending ++ [⟨8#4, 0#16 ++ x⟩] }

/-- SEED of v ^ 0x5DEECE66D restores STATE = v for any 48-bit v, and GETSEED then reads v (R82 d, derived there). -/
def Obligations.SeedRestores : Prop :=
  ∀ (v : Lcg) (s : State), ∃ t, exec (.seed (v.setWidth 64 ^^^ 0x5DEECE66D#64)) s = .next t ∧ t.state = some v ∧
    exec .getseed t = .next { t with pending := t.pending ++ [⟨8#4, v.setWidth 64⟩] }

/-- Reseed equivalence and determinism (R81, derived there): after SEED S, any command sequence gives two unfaulted
blocks, whatever they held before, the same STATE, SEEDED and fault, and the same new beats. -/
def Obligations.ReseedEquivalence : Prop :=
  ∀ (v : Word64) (is : List Instr) (s₁ s₂ : State), s₁.fault = none → s₂.fault = none →
    match runCommands (.seed v :: is) s₁, runCommands (.seed v :: is) s₂ with
    | .next t₁, .next t₂ =>
      t₁.state = t₂.state ∧ t₁.seeded = t₂.seeded ∧ t₁.fault = t₂.fault ∧ s₁.newBeats t₁ = s₂.newBeats t₂
    | .fault r₁, .fault r₂ => r₁ = r₂
    | .refused r₁, .refused r₂ => r₁ = r₂
    | _, _ => False

/-! ### The state transition, the extractor and STEP -/

/-- `Advance()` (R90): (STATE · MULTIPLIER + ADDEND) modulo 2^64, truncated to 48 bits. -/
def Obligations.AdvanceArithmetic : Prop :=
  ∀ x : Lcg, (advance x).toNat = (x.toNat * 0x5DEECE66D + 0xB) % 2 ^ 64 % 2 ^ 48

/-- `Advance()` is a bijection with the inverse of R91 (b), derived there. -/
def Obligations.AdvanceInverse : Prop :=
  ∀ x y : Lcg, advance x = y ↔ x = (y - 11#48) * 0xDFE05BCB1365#48

/-- Full period (R91 c): from any state every 48-bit value is reached within 2^48 advances. The spec marks it as general
knowledge; here it is a statement about the model's `advance`. -/
def Obligations.AdvanceFullPeriod : Prop :=
  ∀ x y : Lcg, ∃ n, n < 2 ^ 48 ∧ advances n x = y

/-- `Next(b)` for 0 ≤ b ≤ 48 (R92): one `Advance()`, and the low 32 bits of the new state shifted right by 48 - b. -/
def Obligations.NextExtracts : Prop :=
  ∀ (b : Nat) (x : Lcg), b ≤ 48 →
    (draw b x).2 = advance x ∧ (draw b x).1.toNat = (advance x).toNat / 2 ^ (48 - b) % 2 ^ 32

/-- The bit table of R92, derived there: bit j of the word is bit 48 - b + j of the new state when j < b, else 0. -/
def Obligations.NextBits : Prop :=
  ∀ (b j : Nat) (x : Lcg), b ≤ 48 → j < 32 →
    (draw b x).1.getLsbD j = (decide (j < b) && (advance x).getLsbD (48 - b + j))

/-- STEP (R93): its encoding; STEP_BITS when b > 48, whatever SEEDED; else NOT_SEEDED while SEEDED = 0; else one beat
with the signed 32-bit word of `Next(b)`, sign-extended, and one advance. -/
def Obligations.Step : Prop :=
  ∀ (arg : Word64) (s : State), decode (0x03#8 ++ arg) = .ok (.step arg.toNat) ∧
    (48 < arg.toNat → exec (.step arg.toNat) s = .next { s with fault := some (.stepBits, 0x03#8), busy := false }) ∧
    (arg.toNat ≤ 48 → s.seeded = false →
      exec (.step arg.toNat) s = .next { s with fault := some (.notSeeded, 0x03#8), busy := false }) ∧
    ∀ x, arg.toNat ≤ 48 → s.seeded = true → s.state = some x →
      exec (.step arg.toNat) s = .next { s with
        state := some (advance x)
        pending := s.pending ++
          [⟨8#4, (BitVec.ofNat 32 ((advance x).toNat / 2 ^ (48 - arg.toNat))).signExtend 64⟩] }

/-! ### Typed output -/

/-- FILL (R100): its encoding; NOT_SEEDED while SEEDED = 0, whatever n; else ⌈n/4⌉ advances and the beats of
`fillBeatsOf`, whose bytes in order are the buffer: n bytes, byte j being byte j mod 4 (the lowest first) of the word of
`Next(32)` number ⌊j/4⌋ + 1 of this command. -/
def Obligations.Fill : Prop :=
  ∀ (arg : Word64) (s : State), decode (0x30#8 ++ arg) = .ok (.fill arg.toNat) ∧
    (s.seeded = false →
      exec (.fill arg.toNat) s = .next { s with fault := some (.notSeeded, 0x30#8), busy := false }) ∧
    ∀ x, s.seeded = true → s.state = some x →
      exec (.fill arg.toNat) s = .next { s with
        state := some (advances ((arg.toNat + 3) / 4) x), pending := s.pending ++ fillBeatsOf arg.toNat x } ∧
      (bufferBytes (fillBeatsOf arg.toNat x)).length = arg.toNat ∧
      ∀ j < arg.toNat, (bufferBytes (fillBeatsOf arg.toNat x)).getD j 0 =
        ((advances (j / 4 + 1) x).extractLsb' 16 32).extractLsb' (8 * (j % 4)) 8

/-- NEXTI32 (R101): w = new STATE[47:16], sign-extended: the signed value sval(w). -/
def Obligations.Nexti32 : Prop :=
  ∀ (arg : Word64) (s : State), decode (0x10#8 ++ arg) = .ok .nexti32 ∧
    (s.seeded = false → exec .nexti32 s = .next { s with fault := some (.notSeeded, 0x10#8), busy := false }) ∧
    ∀ x, s.seeded = true → s.state = some x →
      ∃ d : Word64, d.toInt = ((advance x).extractLsb' 16 32).toInt ∧
        exec .nexti32 s = .next { s with state := some (advance x), pending := s.pending ++ [⟨8#4, d⟩] }

/-- NEXTU32 (R102): w = new STATE[47:16], zero-extended: the unsigned value uval(w). -/
def Obligations.Nextu32 : Prop :=
  ∀ (arg : Word64) (s : State), decode (0x11#8 ++ arg) = .ok .nextu32 ∧
    (s.seeded = false → exec .nextu32 s = .next { s with fault := some (.notSeeded, 0x11#8), busy := false }) ∧
    ∀ x, s.seeded = true → s.state = some x →
      ∃ d : Word64, d.toNat = (advance x).toNat / 2 ^ 16 ∧
        exec .nextu32 s = .next { s with state := some (advance x), pending := s.pending ++ [⟨8#4, d⟩] }

/-- NEXTI64 (R103): two advances, high word first; DATA = sval(hi)·2^32 + sval(lo), wrapped to 64 bits. -/
def Obligations.Nexti64 : Prop :=
  ∀ (arg : Word64) (s : State), decode (0x12#8 ++ arg) = .ok .nexti64 ∧
    (s.seeded = false → exec .nexti64 s = .next { s with fault := some (.notSeeded, 0x12#8), busy := false }) ∧
    ∀ x, s.seeded = true → s.state = some x →
      exec .nexti64 s = .next { s with
        state := some (advance (advance x))
        pending := s.pending ++ [⟨8#4, BitVec.ofInt 64
          (((advance x).extractLsb' 16 32).toInt * 2 ^ 32 + ((advance (advance x)).extractLsb' 16 32).toInt)⟩] }

/-- NEXTU64 (R104): the same 64-bit vector and the same advances as NEXTI64; FOP records 0x13. -/
def Obligations.Nextu64 : Prop :=
  ∀ (arg : Word64) (s : State), decode (0x13#8 ++ arg) = .ok .nextu64 ∧
    (s.seeded = false → exec .nextu64 s = .next { s with fault := some (.notSeeded, 0x13#8), busy := false }) ∧
    ∀ x, s.seeded = true → s.state = some x →
      exec .nextu64 s = .next { s with
        state := some (advance (advance x))
        pending := s.pending ++ [⟨8#4, BitVec.ofInt 64
          (((advance x).extractLsb' 16 32).toInt * 2 ^ 32 + ((advance (advance x)).extractLsb' 16 32).toInt)⟩] }

/-- The borrow of NEXTI64 (R103 a, derived there): DATA = {hi, lo} when lo[31] = 0 and {hi - 1, lo} when lo[31] = 1. -/
def Obligations.Nexti64Borrow : Prop :=
  ∀ (s : State) (x : Lcg), s.seeded = true → s.state = some x →
    exec .nexti64 s = .next { s with
      state := some (advance (advance x))
      pending := s.pending ++ [⟨8#4,
        (if (advance (advance x)).getLsbD 47 then (advance x).extractLsb' 16 32 - 1#32
         else (advance x).extractLsb' 16 32) ++ (advance (advance x)).extractLsb' 16 32⟩] }

/-- NEXTBOOL (R105): 1 exactly when the new STATE[47] = 1, else 0. -/
def Obligations.Nextbool : Prop :=
  ∀ (arg : Word64) (s : State), decode (0x14#8 ++ arg) = .ok .nextbool ∧
    (s.seeded = false → exec .nextbool s = .next { s with fault := some (.notSeeded, 0x14#8), busy := false }) ∧
    ∀ x, s.seeded = true → s.state = some x →
      exec .nextbool s = .next { s with
        state := some (advance x)
        pending := s.pending ++ [⟨8#4, if (advance x).getLsbD 47 then 1#64 else 0#64⟩] }

/-- F32 (R106): +0.0 for 0, else {0, e + 103, the bits of v below its highest 1 bit e, left-justified}; and its value is
exactly the quotient v / 2^24. R106 marks the bit form as derived and the binary32 layout it rests on as general
knowledge; the model takes both as R106 gives them (log entry 9, DEDUCED). -/
def Obligations.F32Conversion : Prop :=
  f32 0#24 = 0x00000000#32 ∧
  (∀ (v : BitVec 24) (e : Nat), v.getLsbD e = true → (∀ j, e < j → v.getLsbD j = false) →
    f32 v = 0#1 ++ BitVec.ofNat 8 (e + 103) ++ (v.setWidth 32 <<< (23 - e)).extractLsb' 0 23) ∧
  ∀ v : BitVec 24, binary32Value (f32 v) = (v.toNat : ℚ) / 2 ^ 24

/-- NEXTF32 (R107): one advance, DATA = zext_64(F32(new STATE[47:24])). -/
def Obligations.Nextf32 : Prop :=
  ∀ (arg : Word64) (s : State), decode (0x15#8 ++ arg) = .ok .nextf32 ∧
    (s.seeded = false → exec .nextf32 s = .next { s with fault := some (.notSeeded, 0x15#8), busy := false }) ∧
    ∀ x, s.seeded = true → s.state = some x →
      exec .nextf32 s = .next { s with
        state := some (advance x)
        pending := s.pending ++ [⟨8#4, 0#32 ++ f32 ((advance x).extractLsb' 24 24)⟩] }

/-- F64 (R108), for v < 2^53: +0.0 for 0, else {0, e + 970, the bits of v below its highest 1 bit e, left-justified}; and
its value is exactly the quotient v / 2^53. R108 marks the bit form as derived and the binary64 layout it rests on as
general knowledge; the model takes both as R108 gives them (log entry 9, DEDUCED). -/
def Obligations.F64Conversion : Prop :=
  f64 0#64 = 0x0000000000000000#64 ∧
  (∀ (v : Word64) (e : Nat), v.toNat < 2 ^ 53 → v.getLsbD e = true → (∀ j, e < j → v.getLsbD j = false) →
    f64 v = 0#1 ++ BitVec.ofNat 11 (e + 970) ++ (v <<< (52 - e)).extractLsb' 0 52) ∧
  ∀ v : Word64, v.toNat < 2 ^ 53 → binary64Value (f64 v) = (v.toNat : ℚ) / 2 ^ 53

/-- NEXTF64 (R109): two advances, high word first; DATA = F64(uval(hi)·2^27 + uval(lo)) with hi = first new STATE[47:22]
and lo = second new STATE[47:21]. -/
def Obligations.Nextf64 : Prop :=
  ∀ (arg : Word64) (s : State), decode (0x16#8 ++ arg) = .ok .nextf64 ∧
    (s.seeded = false → exec .nextf64 s = .next { s with fault := some (.notSeeded, 0x16#8), busy := false }) ∧
    ∀ x, s.seeded = true → s.state = some x →
      exec .nextf64 s = .next { s with
        state := some (advance (advance x))
        pending := s.pending ++ [⟨8#4, f64 (BitVec.ofNat 64
          ((advance x).toNat / 2 ^ 22 * 2 ^ 27 + (advance (advance x)).toNat / 2 ^ 21))⟩] }

/-- Both float commands deliver a value in [0.0, 1.0): +0.0 or a positive normal number below 1 (R107, R109, R110).
The IEEE layouts in which the patterns are read are general knowledge in the spec (log entry 9, DEDUCED). -/
def Obligations.FloatRange : Prop :=
  ∀ (s : State) (x : Lcg), s.seeded = true → s.state = some x →
    (∃ t p, exec .nextf32 s = .next t ∧ t.pending = s.pending ++ [⟨8#4, 0#32 ++ p⟩] ∧
      (p = 0#32 ∨ 0 < (p.extractLsb' 23 8).toNat ∧ (p.extractLsb' 23 8).toNat < 127 ∧ p.getLsbD 31 = false) ∧
      0 ≤ binary32Value p ∧ binary32Value p < 1) ∧
    ∃ t p, exec .nextf64 s = .next t ∧ t.pending = s.pending ++ [⟨8#4, p⟩] ∧
      (p = 0#64 ∨ 0 < (p.extractLsb' 52 11).toNat ∧ (p.extractLsb' 52 11).toNat < 1023 ∧ p.getLsbD 63 = false) ∧
      0 ≤ binary64Value p ∧ binary64Value p < 1

/-! ### The bounded sampler -/

/-- IsPow2 (R130), and the equivalent bit test for m ≠ 0, which R130 marks as derived from the definition. -/
def Obligations.IsPow2 : Prop :=
  ∀ m : Word32, (isPow2 m = true ↔ ∃ k : Nat, m.toNat = 2 ^ k) ∧
    (m ≠ 0#32 → (isPow2 m = true ↔ m &&& (m - 0x00000001#32) = 0#32))

/-- BOUNDI32 (R131): its encoding; BOUND_NONPOS when sval(max) ≤ 0, whatever SEEDED; else NOT_SEEDED while SEEDED = 0;
for a power of two one draw, scaled; for any other bound the first draw whose `t` is not negative as a signed 32-bit
value, reduced modulo max, however many draws before it were rejected. That such a draw exists is BoundTerminates. -/
def Obligations.Boundi32 : Prop :=
  ∀ (arg : Word64) (s : State) (m : Word32), m = arg.extractLsb' 0 32 →
    decode (0x20#8 ++ arg) = .ok (.boundi32 m) ∧
    (m.toInt ≤ 0 → exec (.boundi32 m) s = .next { s with fault := some (.boundNonpos, 0x20#8), busy := false }) ∧
    (0 < m.toInt → s.seeded = false →
      exec (.boundi32 m) s = .next { s with fault := some (.notSeeded, 0x20#8), busy := false }) ∧
    ∀ x, 0 < m.toInt → s.seeded = true → s.state = some x →
      ((∃ k : Nat, m.toNat = 2 ^ k) →
        exec (.boundi32 m) s = .next { s with
          state := some (advance x)
          pending := s.pending ++ [⟨8#4, 0#32 ++ BitVec.ofNat 32 (m.toNat * ((advance x).toNat / 2 ^ 17) / 2 ^ 31)⟩] }) ∧
      ∀ j : Nat, (¬∃ k : Nat, m.toNat = 2 ^ k) → 1 ≤ j → 0 ≤ (loopTest m (loopDraw x j)).toInt →
        (∀ i, 1 ≤ i → i < j → (loopTest m (loopDraw x i)).toInt < 0) →
        exec (.boundi32 m) s = .next { s with
          state := some (advances j x)
          pending := s.pending ++ [⟨8#4, 0#32 ++ loopDraw x j % m⟩] }

/-- The power-of-two path in closed form (R132, derived there): for max = 2^k the result is the top k bits of the new
state, after exactly one advance. Both bounds. -/
def Obligations.BoundPow2ClosedForm : Prop :=
  ∀ (s : State) (x : Lcg) (k : Nat), k ≤ 30 → s.seeded = true → s.state = some x →
    ∀ i ∈ [Instr.boundi32 (BitVec.ofNat 32 (2 ^ k)), Instr.boundu32 (BitVec.ofNat 32 (2 ^ k))],
      exec i s = .next { s with
        state := some (advance x)
        pending := s.pending ++ [⟨8#4, BitVec.ofNat 64 ((advance x).toNat / 2 ^ (48 - k))⟩] }

/-- The rejection condition in closed form (R133, derived there): for a positive bound m and a 31-bit draw, the draw is
accepted exactly when it is below m·⌊2^31/m⌋. -/
def Obligations.AcceptClosedForm : Prop :=
  ∀ m bits : Word32, 0 < m.toInt → bits.toNat < 2 ^ 31 →
    (accepted m bits = true ↔ bits.toNat < m.toNat * (2 ^ 31 / m.toNat))

/-- Termination and range (R134, derived there from R91 c; R131 g): for every accepted bound and every seeded state both
bounds complete with one value beat in [0, max). For a power of two after one advance, the scaled draw; for any other
bound at the first accepted draw `j`, which exists and is at most 2^48, after `j` advances and with that draw modulo max.
The spec marks the 2^48 as general knowledge; here it is a statement about the model's loop (log entry 5). -/
def Obligations.BoundTerminates : Prop :=
  ∀ (s : State) (x : Lcg) (m : Word32), 0 < m.toInt → s.seeded = true → s.state = some x →
    ∀ i ∈ [Instr.boundi32 m, Instr.boundu32 m],
      ∃ (j : Nat) (res : Word32),
        ((∃ k : Nat, m.toNat = 2 ^ k) → j = 1 ∧
          res = BitVec.ofNat 32 (m.toNat * ((advance x).toNat / 2 ^ 17) / 2 ^ 31)) ∧
        ((¬∃ k : Nat, m.toNat = 2 ^ k) → FirstAccepted m x j ∧ res = loopDraw x j % m) ∧
        j ≤ 2 ^ 48 ∧ res.toNat < m.toNat ∧
        exec i s = .next { s with state := some (advances j x), pending := s.pending ++ [⟨8#4, 0#32 ++ res⟩] }

/-- BOUNDU32 (R135): its encoding; BOUND_NONPOS exactly when uval(max) = 0 or uval(max) ≥ 2^31, with FOP 0x21; else
NOT_SEEDED while SEEDED = 0, with FOP 0x21; otherwise the same answer as BOUNDI32. -/
def Obligations.Boundu32 : Prop :=
  ∀ (arg : Word64) (s : State) (m : Word32), m = arg.extractLsb' 0 32 →
    decode (0x21#8 ++ arg) = .ok (.boundu32 m) ∧
    ((m.toNat = 0 ∨ 2 ^ 31 ≤ m.toNat) →
      exec (.boundu32 m) s = .next { s with fault := some (.boundNonpos, 0x21#8), busy := false }) ∧
    (0 < m.toNat → m.toNat < 2 ^ 31 → s.seeded = false →
      exec (.boundu32 m) s = .next { s with fault := some (.notSeeded, 0x21#8), busy := false }) ∧
    (0 < m.toNat → m.toNat < 2 ^ 31 → s.seeded = true → exec (.boundu32 m) s = exec (.boundi32 m) s)

/-! ### Faults and frames -/

/-- NOT_SEEDED (R153): any legal command other than SEED, once its argument check passes, faults so while SEEDED = 0,
with its own OP in FOP. -/
def Obligations.NotSeeded : Prop :=
  ∀ (i : Instr) (s : State), s.seeded = false → (∀ v, i ≠ .seed v) → (∀ b, i = .step b → b ≤ 48) →
    (∀ m, i = .boundi32 m ∨ i = .boundu32 m → 0 < m.toInt) →
    exec i s = .next { s with fault := some (.notSeeded, (encode i).extractLsb' 64 8), busy := false }

/-- Causes and their order (R156): an accepted word reports the first cause that holds of ILLEGAL_OP, its argument check
and NOT_SEEDED, with its OP, and none when none holds. -/
def Obligations.FaultPriority : Prop :=
  ∀ (s t : State) (w : CommandWord),
    s.pins.rst = false → s.pins.cmd = some w → s.busy = false → s.fault = none → step s = .next t →
    t.fault =
      match decode w with
      | .error (.illegalOp op) => some (.illegalOp, op)
      | .ok i => (firstCause i s.seeded).map fun c => (c, w.extractLsb' 64 8)

/-- Validate before stepping (R155) and fault entry (R157): a command that faults changes FAULT, CAUSE, FOP and BUSY and
nothing else, and the STATUS word shows it; a command that passes its checks does not fault. -/
def Obligations.FaultEntry : Prop :=
  ∀ (i : Instr) (s t : State), s.fault = none → exec i s = .next t →
    (∀ (c : Cause) (op : Op), t.fault = some (c, op) →
      op = (encode i).extractLsb' 64 8 ∧ t = { s with fault := some (c, op), busy := false } ∧
        t.status = op ++ c.code ++ 0b001#3 ++ BitVec.ofBool s.seeded) ∧
    (firstCause i s.seeded = none → t.fault = none)

/-- Advances of the commands whose number R178 fixes (derived there): every command but SEED, and of the two bounds those
with a power-of-two max, that does not fault advances STATE exactly as often as its row of the table says. SEED's row and
that of a bound that is no power of two are in StateWriters, which states the whole table. -/
def Obligations.AdvanceCounts : Prop :=
  ∀ (i : Instr) (s t : State) (x : Lcg) (k : Nat), s.fault = none → s.seeded = true → s.state = some x →
    (∀ v, i ≠ .seed v) → fixedAdvances i = some k → exec i s = .next t → t.fault = none →
    t.state = some (advances k x)

/-- What each command leaves in STATE and SEEDED (R20, R27, R178, derived there), whenever it answers a next state. A
faulting command, GETSEED and FILL 0 leave STATE alone; SEED writes its transformation of the seed; every other command
leaves STATE advanced exactly as often as R178's table says, for a bound that is no power of two as often as the index of
the first accepted draw. SEEDED is set by SEED and cleared by none. -/
def Obligations.StateWriters : Prop :=
  ∀ (i : Instr) (s t : State), exec i s = .next t →
    (∀ c, firstCause i s.seeded = some c → t.state = s.state) ∧
    (i = .getseed ∨ i = .fill 0 → t.state = s.state) ∧
    (∀ v, i = .seed v → t.state = some ((v ^^^ 0x5DEECE66D#64).extractLsb' 0 48)) ∧
    (firstCause i s.seeded = none → (∀ v, i ≠ .seed v) →
      ∃ x k, s.state = some x ∧ AdvancesBy i x k ∧ t.state = some (advances k x)) ∧
    t.seeded = (s.seeded || decide (∃ v, i = .seed v))

/-- The frame of every command: beats already transferred and the host's pins to come are unchanged, beats emitted
before stay where they are, and without a fault entry BUSY and the recorded fault are unchanged. SEED emits no beat,
GETSEED changes nothing but the response channel. That a command runs whole and leaves its beats in `pending` is log
entry 2 (DESIGN CHOICE); `inputs` and `transferred` are the model's fields (log entries 1, DESIGN CHOICE, and 6,
DEDUCED). -/
def Obligations.CommandFrame : Prop :=
  ∀ (i : Instr) (s t : State), exec i s = .next t →
    t.transferred = s.transferred ∧ t.inputs = s.inputs ∧ (∃ bs, t.pending = s.pending ++ bs) ∧
    (firstCause i s.seeded = none → t.busy = s.busy ∧ t.fault = s.fault) ∧
    ((∃ v, i = .seed v) → t.pending = s.pending) ∧
    (i = .getseed → t.state = s.state ∧ t.seeded = s.seeded)

/-- The frame of the value commands and of FILL: SEEDED, BUSY, the fault record, the transferred beats and the host's
pins are unchanged; only STATE and the beats waiting change, a value command adding exactly one beat with NB = 8. That
a command runs whole and leaves its beats in `pending` is log entry 2 (DESIGN CHOICE); `inputs` and `transferred` are the
model's fields (log entries 1, DESIGN CHOICE, and 6, DEDUCED). -/
def Obligations.ValueFrame : Prop :=
  ∀ (i : Instr) (s t : State), exec i s = .next t → firstCause i s.seeded = none → (∀ v, i ≠ .seed v) →
    t = { s with state := t.state, pending := t.pending } ∧
    ((∀ n, i ≠ .fill n) → ∃ d, t.pending = s.pending ++ [⟨8#4, d⟩])

/-! ### Invariants -/

/-- Every step keeps the invariant of the model's state. SEEDED = 1 exactly when STATE holds a value is R27's and R34's;
a halted block has no beat waiting (R155, R157); every beat has a legal format (R67). BUSY = 1 exactly when a beat waits
is the model's own: commands are atomic steps, so that BUSY is never seen while one computes (log entries 2 and 3,
DESIGN CHOICE, allowed by D27). -/
def Obligations.StepKeepsInv : Prop := ∀ s t : State, s.Inv → step s = .next t → t.Inv

/-- The state after reset has the invariant of StepKeepsInv, whose BUSY clause is the model's own (log entries 2 and 3,
DESIGN CHOICE). -/
def Obligations.ResetInv : Prop := State.reset.Inv

/-- Every step keeps the fault record legal: each cause with the OPs that raise it, NOT_SEEDED only on an unseeded block
(R150, R153, R154, R157). -/
def Obligations.StepKeepsFaultRecord : Prop := ∀ s t : State, s.FaultInv → step s = .next t → t.FaultInv

/-- In a state with the invariant the machine never stops: every step, whatever the host does, answers a next state. The
stops it excludes are the model's own (log entry 4, DEDUCED, and 5, DESIGN CHOICE). -/
def Obligations.StepNeverStops : Prop := ∀ s : State, s.Inv → ∃ t, step s = .next t

/-! ### Instances and the assembler -/

/-- Several instances (R163): a step of one leaves every other as it was, and what it does to its own state is `step`,
whatever the others hold. That a chip is a list of states with one of them stepping at a time is log entry 8 (DEDUCED). -/
def Obligations.InstancesIsolated : Prop :=
  ∀ (c d : Chip) (k : Nat) (s : State), c.getD k State.reset = s → k < c.length → c.stepInstance k = .next d →
    d.length = c.length ∧ (∀ j, j ≠ k → d.getD j State.reset = c.getD j State.reset) ∧
      step s = .next (d.getD k State.reset)

/-- The assembler's operand ranges and ARG encodings (R69): the words of the commands with an operand and of those
without, and a refusal outside the range. That the host then presents the word as one sample of its pins is log entry 1
(DESIGN CHOICE). -/
def Obligations.AssemblerWords : Prop :=
  (∀ v : Int, assembleCommand .seed (some v) =
    if -2 ^ 63 ≤ v ∧ v ≤ 2 ^ 64 - 1 then some [{ cmd := some (0x01#8 ++ BitVec.ofInt 64 v) }] else none) ∧
  (∀ v : Int, assembleCommand .step (some v) =
    if 0 ≤ v ∧ v ≤ 2 ^ 64 - 1 then some [{ cmd := some (0x03#8 ++ BitVec.ofNat 64 v.toNat) }] else none) ∧
  (∀ v : Int, assembleCommand .fill (some v) =
    if 0 ≤ v ∧ v ≤ 2 ^ 64 - 1 then some [{ cmd := some (0x30#8 ++ BitVec.ofNat 64 v.toNat) }] else none) ∧
  (∀ v : Int, assembleCommand .boundi32 (some v) =
    if -2 ^ 31 ≤ v ∧ v ≤ 2 ^ 31 - 1 then some [{ cmd := some (0x20#8 ++ (0#32 ++ BitVec.ofInt 32 v)) }] else none) ∧
  (∀ v : Int, assembleCommand .boundu32 (some v) =
    if 0 ≤ v ∧ v ≤ 2 ^ 32 - 1 then some [{ cmd := some (0x21#8 ++ (0#32 ++ BitVec.ofNat 32 v.toNat)) }] else none) ∧
  ∀ row ∈ [(Mnemonic.getseed, 0x02#8), (.nexti32, 0x10#8), (.nextu32, 0x11#8), (.nexti64, 0x12#8), (.nextu64, 0x13#8),
      (.nextbool, 0x14#8), (.nextf32, 0x15#8), (.nextf64, 0x16#8)],
    assembleCommand row.1 none = some [{ cmd := some (row.2 ++ 0#64) }] ∧
      ∀ v : Int, assembleCommand row.1 (some v) = none

/-- CONSTRUCT (R70, R171): from any state, a faulted one too, the host's two samples for `CONSTRUCT v` leave the STATE
of SEED v, SEEDED = 1 and STATUS = 0x0001. Two samples, two steps, and SEED complete in the step that accepts it are the
model's (log entries 1 and 2, DESIGN CHOICE). -/
def Obligations.ConstructSeeds : Prop :=
  ∀ (s : State) (v : Int) (ps : List Pins), assembleCommand .construct (some v) = some ps →
    ∃ t, core.run 2 { s with inputs := ps } = .next t ∧
      t.state = some ((BitVec.ofInt 64 v ^^^ 0x5DEECE66D#64).extractLsb' 0 48) ∧ t.status = 0x0001#16 ∧ t.pending = []
end

