-- ==== Sys2Proof/Laws/Decode.lean ====
section
/-! SUPPORT. The fields of a command word, and what the decoder answers by OP. -/

namespace Sys2Proof

@[simp] theorem opField_commandWord (op : Op) (arg : Word64) : opField (commandWord op arg) = op := 
  BitVec.extractLsb'_append_eq_left

@[simp] theorem argField_commandWord (op : Op) (arg : Word64) : argField (commandWord op arg) = arg := 
  BitVec.extractLsb'_append_eq_right

/-- A word is its two fields (R60). -/
theorem commandWord_fields (w : CommandWord) : commandWord (opField w) (argField w) = w := by
  unfold opField argField commandWord
  ext i hi
  simp only [BitVec.getElem_append, BitVec.getElem_extractLsb', Nat.zero_add]
  split
  · rw [BitVec.getLsbD_eq_getElem]
  · rw [show 64 + (i - 64) = i by omega, BitVec.getLsbD_eq_getElem]

@[simp] theorem opField_encode (i : Instr) : opField (encode i) = i.op := opField_commandWord _ _

@[simp] theorem argField_encode (i : Instr) : argField (encode i) = i.arg := argField_commandWord _ _

/-- The decoder reads OP and ARG only through the fields: the answer by OP value (R62). -/
theorem decode_commandWord (op : Op) (arg : Word64) : decode (commandWord op arg) =
    if op = opSeed then .ok (.seed (argS64 arg))
    else if op = opGetseed then .ok .getseed
    else if op = opStep then .ok (.step (argU64 arg))
    else if op = opNexti32 then .ok .nexti32
    else if op = opNextu32 then .ok .nextu32
    else if op = opNexti64 then .ok .nexti64
    else if op = opNextu64 then .ok .nextu64
    else if op = opNextbool then .ok .nextbool
    else if op = opNextf32 then .ok .nextf32
    else if op = opNextf64 then .ok .nextf64
    else if op = opBoundi32 then .ok (.boundi32 (argM32 arg))
    else if op = opBoundu32 then .ok (.boundu32 (argM32 arg))
    else if op = opFill then .ok (.fill (argU64 arg))
    else .error (.illegalOp op) := by
  unfold decode; simp only [opField_commandWord, argField_commandWord]

/-- A conditional takes one of its branches. -/
theorem ite_eq_cases {α : Type} {c : Prop} [Decidable c] {a b r : α} (h : r = if c then a else b) :
    (c ∧ r = a) ∨ (¬c ∧ r = b) := by
  by_cases hc : c
  · exact .inl ⟨hc, by rwa [if_pos hc] at h⟩
  · exact .inr ⟨hc, by rwa [if_neg hc] at h⟩

/-- Every answer of the decoder on a word with this OP: a command of that OP, or the refusal that names the OP. -/
theorem decode_commandWord_cases (op : Op) (arg : Word64) :
    (∃ i, decode (commandWord op arg) = .ok i ∧ i.op = op ∧ op ∈ assignedOps) ∨
      (decode (commandWord op arg) = .error (.illegalOp op) ∧ op ∉ assignedOps) := by
  have h := decode_commandWord op arg
  generalize decode (commandWord op arg) = r at h ⊢
  iterate 13
    replace h := ite_eq_cases h
    rcases h with ⟨e, h⟩ | ⟨ne, h⟩
    exact .inl ⟨_, h, e.symm, by rw [e]; decide⟩
  refine .inr ⟨h, ?_⟩
  simp only [assignedOps, List.mem_cons, List.not_mem_nil, or_false, not_or]
  refine ⟨?_, ?_, ?_, ?_, ?_, ?_, ?_, ?_, ?_, ?_, ?_, ?_, ?_⟩ <;> assumption

/-- What decodes keeps its OP, and is one of the thirteen (R61, R62). -/
theorem decode_ok_op {w : CommandWord} {i : Instr} (h : decode w = .ok i) :
    i.op = opField w ∧ opField w ∈ assignedOps := by
  rw [← commandWord_fields w] at h
  rcases decode_commandWord_cases (opField w) (argField w) with ⟨j, hj, e, m⟩ | ⟨hj, -⟩
  · rw [h] at hj; injection hj with hj; exact ⟨by rw [hj, e], m⟩
  · rw [h] at hj; injection hj

/-- What does not decode has an unassigned OP, which the answer names (R65). -/
theorem decode_error_op {w : CommandWord} {op : Op} (h : decode w = .error (.illegalOp op)) :
    op = opField w ∧ opField w ∉ assignedOps := by
  rw [← commandWord_fields w] at h
  rcases decode_commandWord_cases (opField w) (argField w) with ⟨j, hj, -⟩ | ⟨hj, m⟩
  · rw [h] at hj; injection hj
  · rw [h] at hj; injection hj with hj; injection hj with hj; exact ⟨hj, m⟩

end Sys2Proof
end

