-- ==== Sys2Proof/Laws/State.lean ====
section
/-! SUPPORT. One lemma per field per update of the state, and what the views read after an update. -/

namespace Sys2Proof.Machine

variable (s : State)

/-! ### writeState -/

@[simp] theorem State.writeState_state (x : Lcg) :
    (s.writeState x).state = some x := rfl
@[simp] theorem State.writeState_seeded (x : Lcg) :
    (s.writeState x).seeded = s.seeded := rfl
@[simp] theorem State.writeState_busy (x : Lcg) :
    (s.writeState x).busy = s.busy := rfl
@[simp] theorem State.writeState_fault (x : Lcg) :
    (s.writeState x).fault = s.fault := rfl
@[simp] theorem State.writeState_pending (x : Lcg) :
    (s.writeState x).pending = s.pending := rfl
@[simp] theorem State.writeState_transferred (x : Lcg) :
    (s.writeState x).transferred = s.transferred := rfl
@[simp] theorem State.writeState_inputs (x : Lcg) :
    (s.writeState x).inputs = s.inputs := rfl

/-! ### setSeeded -/

@[simp] theorem State.setSeeded_state :
    s.setSeeded.state = s.state := rfl
@[simp] theorem State.setSeeded_seeded :
    s.setSeeded.seeded = true := rfl
@[simp] theorem State.setSeeded_busy :
    s.setSeeded.busy = s.busy := rfl
@[simp] theorem State.setSeeded_fault :
    s.setSeeded.fault = s.fault := rfl
@[simp] theorem State.setSeeded_pending :
    s.setSeeded.pending = s.pending := rfl
@[simp] theorem State.setSeeded_transferred :
    s.setSeeded.transferred = s.transferred := rfl
@[simp] theorem State.setSeeded_inputs :
    s.setSeeded.inputs = s.inputs := rfl

/-! ### emit -/

@[simp] theorem State.emit_state (nb : BitVec 4) (d : Word64) :
    (s.emit nb d).state = s.state := rfl
@[simp] theorem State.emit_seeded (nb : BitVec 4) (d : Word64) :
    (s.emit nb d).seeded = s.seeded := rfl
@[simp] theorem State.emit_busy (nb : BitVec 4) (d : Word64) :
    (s.emit nb d).busy = s.busy := rfl
@[simp] theorem State.emit_fault (nb : BitVec 4) (d : Word64) :
    (s.emit nb d).fault = s.fault := rfl
@[simp] theorem State.emit_pending (nb : BitVec 4) (d : Word64) :
    (s.emit nb d).pending = s.pending ++ [⟨nb, d⟩] := rfl
@[simp] theorem State.emit_transferred (nb : BitVec 4) (d : Word64) :
    (s.emit nb d).transferred = s.transferred := rfl
@[simp] theorem State.emit_inputs (nb : BitVec 4) (d : Word64) :
    (s.emit nb d).inputs = s.inputs := rfl

/-! ### emitValue -/

@[simp] theorem State.emitValue_state (d : Word64) :
    (s.emitValue d).state = s.state := rfl
@[simp] theorem State.emitValue_seeded (d : Word64) :
    (s.emitValue d).seeded = s.seeded := rfl
@[simp] theorem State.emitValue_busy (d : Word64) :
    (s.emitValue d).busy = s.busy := rfl
@[simp] theorem State.emitValue_fault (d : Word64) :
    (s.emitValue d).fault = s.fault := rfl
@[simp] theorem State.emitValue_pending (d : Word64) :
    (s.emitValue d).pending = s.pending ++ [⟨8#4, d⟩] := rfl
@[simp] theorem State.emitValue_transferred (d : Word64) :
    (s.emitValue d).transferred = s.transferred := rfl
@[simp] theorem State.emitValue_inputs (d : Word64) :
    (s.emitValue d).inputs = s.inputs := rfl

/-! ### emitAll -/

@[simp] theorem State.emitAll_state (bs : List Beat) :
    (s.emitAll bs).state = s.state := rfl
@[simp] theorem State.emitAll_seeded (bs : List Beat) :
    (s.emitAll bs).seeded = s.seeded := rfl
@[simp] theorem State.emitAll_busy (bs : List Beat) :
    (s.emitAll bs).busy = s.busy := rfl
@[simp] theorem State.emitAll_fault (bs : List Beat) :
    (s.emitAll bs).fault = s.fault := rfl
@[simp] theorem State.emitAll_pending (bs : List Beat) :
    (s.emitAll bs).pending = s.pending ++ bs := rfl
@[simp] theorem State.emitAll_transferred (bs : List Beat) :
    (s.emitAll bs).transferred = s.transferred := rfl
@[simp] theorem State.emitAll_inputs (bs : List Beat) :
    (s.emitAll bs).inputs = s.inputs := rfl

/-! ### raise -/

@[simp] theorem State.raise_state (c : Cause) (op : Op) :
    (s.raise c op).state = s.state := rfl
@[simp] theorem State.raise_seeded (c : Cause) (op : Op) :
    (s.raise c op).seeded = s.seeded := rfl
@[simp] theorem State.raise_busy (c : Cause) (op : Op) :
    (s.raise c op).busy = false := rfl
@[simp] theorem State.raise_fault (c : Cause) (op : Op) :
    (s.raise c op).fault = some (c, op) := rfl
@[simp] theorem State.raise_pending (c : Cause) (op : Op) :
    (s.raise c op).pending = s.pending := rfl
@[simp] theorem State.raise_transferred (c : Cause) (op : Op) :
    (s.raise c op).transferred = s.transferred := rfl
@[simp] theorem State.raise_inputs (c : Cause) (op : Op) :
    (s.raise c op).inputs = s.inputs := rfl

/-! ### tick -/

@[simp] theorem State.tick_state :
    (s.tick).state = s.state := rfl
@[simp] theorem State.tick_seeded :
    (s.tick).seeded = s.seeded := rfl
@[simp] theorem State.tick_busy :
    (s.tick).busy = s.busy := rfl
@[simp] theorem State.tick_fault :
    (s.tick).fault = s.fault := rfl
@[simp] theorem State.tick_pending :
    (s.tick).pending = s.pending := rfl
@[simp] theorem State.tick_transferred :
    (s.tick).transferred = s.transferred := rfl
@[simp] theorem State.tick_inputs :
    (s.tick).inputs = s.inputs.tail := rfl

/-! ### accept -/

@[simp] theorem State.accept_state :
    (s.accept).state = s.state := rfl
@[simp] theorem State.accept_seeded :
    (s.accept).seeded = s.seeded := rfl
@[simp] theorem State.accept_busy :
    (s.accept).busy = true := rfl
@[simp] theorem State.accept_fault :
    (s.accept).fault = s.fault := rfl
@[simp] theorem State.accept_pending :
    (s.accept).pending = s.pending := rfl
@[simp] theorem State.accept_transferred :
    (s.accept).transferred = s.transferred := rfl
@[simp] theorem State.accept_inputs :
    (s.accept).inputs = s.inputs := rfl

/-! ### settle -/

@[simp] theorem State.settle_state :
    (s.settle).state = s.state := rfl
@[simp] theorem State.settle_seeded :
    (s.settle).seeded = s.seeded := rfl
@[simp] theorem State.settle_busy :
    (s.settle).busy = (s.busy && !s.pending.isEmpty) := rfl
@[simp] theorem State.settle_fault :
    (s.settle).fault = s.fault := rfl
@[simp] theorem State.settle_pending :
    (s.settle).pending = s.pending := rfl
@[simp] theorem State.settle_transferred :
    (s.settle).transferred = s.transferred := rfl
@[simp] theorem State.settle_inputs :
    (s.settle).inputs = s.inputs := rfl

/-! ### hardReset -/

@[simp] theorem State.hardReset_state :
    (s.hardReset).state = none := rfl
@[simp] theorem State.hardReset_seeded :
    (s.hardReset).seeded = false := rfl
@[simp] theorem State.hardReset_busy :
    (s.hardReset).busy = false := rfl
@[simp] theorem State.hardReset_fault :
    (s.hardReset).fault = none := rfl
@[simp] theorem State.hardReset_pending :
    (s.hardReset).pending = [] := rfl
@[simp] theorem State.hardReset_transferred :
    (s.hardReset).transferred = s.transferred := rfl
@[simp] theorem State.hardReset_inputs :
    (s.hardReset).inputs = s.inputs := rfl

/-! ### present -/

@[simp] theorem State.present_state (w : CommandWord) :
    (s.present w).state = s.state := rfl
@[simp] theorem State.present_seeded (w : CommandWord) :
    (s.present w).seeded = s.seeded := rfl
@[simp] theorem State.present_busy (w : CommandWord) :
    (s.present w).busy = s.busy := rfl
@[simp] theorem State.present_fault (w : CommandWord) :
    (s.present w).fault = s.fault := rfl
@[simp] theorem State.present_pending (w : CommandWord) :
    (s.present w).pending = s.pending := rfl
@[simp] theorem State.present_transferred (w : CommandWord) :
    (s.present w).transferred = s.transferred := rfl
@[simp] theorem State.present_inputs (w : CommandWord) :
    (s.present w).inputs = { cmd := some w } :: s.inputs := rfl

/-! ### transferBeat -/

/-- With no beat waiting, nothing is transferred. -/
theorem State.transferBeat_nil (h : s.pending = []) : s.transferBeat = s := by
  unfold State.transferBeat; rw [h]

/-- The oldest beat moves to the end of the transferred ones. -/
theorem State.transferBeat_cons {b : Beat} {rest : List Beat} (h : s.pending = b :: rest) :
    s.transferBeat = { s with pending := rest, transferred := s.transferred ++ [b] } := by
  unfold State.transferBeat; rw [h]

@[simp] theorem State.transferBeat_state : s.transferBeat.state = s.state := by
  unfold State.transferBeat; split <;> rfl
@[simp] theorem State.transferBeat_seeded : s.transferBeat.seeded = s.seeded := by
  unfold State.transferBeat; split <;> rfl
@[simp] theorem State.transferBeat_busy : s.transferBeat.busy = s.busy := by
  unfold State.transferBeat; split <;> rfl
@[simp] theorem State.transferBeat_fault : s.transferBeat.fault = s.fault := by
  unfold State.transferBeat; split <;> rfl
@[simp] theorem State.transferBeat_inputs : s.transferBeat.inputs = s.inputs := by
  unfold State.transferBeat; split <;> rfl

/-! ### Views -/

/-- A transfer loses and reorders no beat (R176). -/
@[simp] theorem State.transferBeat_beats : s.transferBeat.beats = s.beats := by
  unfold State.transferBeat State.beats
  split
  · rfl
  · next b rest h => simp [h]

@[simp] theorem State.tick_beats : s.tick.beats = s.beats := rfl
@[simp] theorem State.settle_beats : s.settle.beats = s.beats := rfl
@[simp] theorem State.accept_beats : s.accept.beats = s.beats := rfl
@[simp] theorem State.raise_beats (c : Cause) (op : Op) : (s.raise c op).beats = s.beats := rfl
@[simp] theorem State.hardReset_beats : s.hardReset.beats = s.transferred := by
  simp [State.beats]
@[simp] theorem State.emitAll_beats (bs : List Beat) : (s.emitAll bs).beats = s.beats ++ bs := by
  simp [State.beats]
@[simp] theorem State.emitValue_beats (d : Word64) : (s.emitValue d).beats = s.beats ++ [⟨8#4, d⟩] := by
  simp [State.beats]
@[simp] theorem State.setSeeded_beats : s.setSeeded.beats = s.beats := rfl
@[simp] theorem State.writeState_beats (x : Lcg) : (s.writeState x).beats = s.beats := rfl
/-- STATUS of a block that is idle and has not faulted: SEEDED alone (R26). -/
theorem State.status_idle (hf : s.fault = none) (hb : s.busy = false) :
    s.status = if s.seeded then 0x0001#16 else 0x0000#16 := by
  unfold State.status State.fop State.cause State.faultBit
  rw [hf, hb]
  cases s.seeded <;> decide

/-- STATUS of a block that has faulted and is idle (R26, R28). -/
theorem State.status_faulted {c : Cause} {op : Op} (hf : s.fault = some (c, op)) (hb : s.busy = false) :
    s.status = op ++ c.code ++ 0b001#3 ++ BitVec.ofBool s.seeded := by
  unfold State.status State.fop State.cause State.faultBit
  rw [hf, hb]
  clear hf
  cases c <;> cases s.seeded <;> revert op <;> decide

@[simp] theorem State.present_pins (w : CommandWord) : (s.present w).pins = { cmd := some w } := rfl
@[simp] theorem State.present_tick (w : CommandWord) : (s.present w).tick = s := rfl

end Sys2Proof.Machine
end

