-- ==== Sys2Proof/Laws/Ops.lean ====
section
/-! SUPPORT. For each shared operation, what it can answer. -/

namespace Sys2Proof.Machine

/-! ### The SEEDED check -/

/-- While SEEDED = 0 the check enters NOT_SEEDED (R153). -/
theorem State.ifSeeded_unseeded {s : State} {op : Op} {body : Lcg → Answer} (h : s.seeded = false) :
    s.ifSeeded op body = .next (s.raise .notSeeded op) := by
  unfold State.ifSeeded; rw [h]; rfl

/-- With SEEDED = 1 the rest of the command runs on the value STATE holds. -/
theorem State.ifSeeded_seeded {s : State} {op : Op} {body : Lcg → Answer} {x : Lcg} (h : s.seeded = true)
    (hx : s.state = some x) : s.ifSeeded op body = body x := by
  unfold State.ifSeeded; rw [h, hx]; rfl

/-- The two ways the check lets a command answer a next state. -/
theorem State.ifSeeded_next {s t : State} {op : Op} {body : Lcg → Answer} (h : s.ifSeeded op body = .next t) :
    (s.seeded = false ∧ t = s.raise .notSeeded op) ∨
      ∃ x, s.seeded = true ∧ s.state = some x ∧ body x = .next t := by
  unfold State.ifSeeded at h
  split at h
  · next hs =>
    split at h
    · next x hx => exact .inr ⟨x, hs, hx, h⟩
    · cases h
  · next hs =>
    injection h with h
    exact .inl ⟨by simpa using hs, h.symm⟩

/-! ### The argument checks -/

@[simp] theorem stepBitsBad_iff (b : Nat) : stepBitsBad b = true ↔ 48 < b := decide_eq_true_iff

@[simp] theorem boundBad_iff (m : Word32) : boundBad m = true ↔ m.toInt ≤ 0 := decide_eq_true_iff

/-! ### Answers and STATUS -/

/-- Settling an answer keeps its kind. -/
theorem settleAnswer_next {a : Answer} {t : State} (h : settleAnswer a = .next t) : ∃ u, a = .next u ∧ t = u.settle := by
  cases a with
  | next s => injection h with h; exact ⟨s, rfl, h.symm⟩
  | fault r => cases h
  | refused r => cases h

@[simp] theorem settleAnswer_of_next (s : State) : settleAnswer (.next s) = .next s.settle := rfl
@[simp] theorem settleAnswer_of_fault (r : Fault) : settleAnswer (.fault r) = .fault r := rfl
@[simp] theorem settleAnswer_of_refused (r : Refusal) : settleAnswer (.refused r) = .refused r := rfl

/-! ### The advance chain -/

@[simp] theorem advances_zero (x : Lcg) : advances 0 x = x := rfl

theorem advances_succ (n : Nat) (x : Lcg) : advances (n + 1) x = advance (advances n x) := rfl

@[simp] theorem advances_one (x : Lcg) : advances 1 x = advance x := rfl

theorem advances_two (x : Lcg) : advances 2 x = advance (advance x) := rfl

theorem advances_add (m n : Nat) (x : Lcg) : advances (m + n) x = advances n (advances m x) := by
  induction n with
  | zero => rfl
  | succ n ih => rw [← Nat.add_assoc, advances_succ, advances_succ, ih]

theorem advances_succ' (n : Nat) (x : Lcg) : advances (n + 1) x = advances n (advance x) := by
  rw [Nat.add_comm, advances_add, advances_one]

/-- AND MASK and truncation are the same (R23, R90). -/
theorem mask_truncates (q : Word64) : (q &&& Config.mask).setWidth 48 = q.setWidth 48 := by
  apply BitVec.eq_of_toNat_eq
  have : Config.mask.toNat = 2 ^ 48 - 1 := rfl
  rw [BitVec.toNat_setWidth, BitVec.toNat_and, this, Nat.and_two_pow_sub_one_eq_mod, Nat.mod_mod, BitVec.toNat_setWidth]

/-- `Advance()` computed in 48 bits (R91 a: any width ≥ 48 and truncate). -/
theorem advance_eq (x : Lcg) : advance x = x * 0x5DEECE66D#48 + 0xB#48 := by
  unfold advance
  rw [mask_truncates, BitVec.setWidth_add _ _ (by decide), BitVec.setWidth_mul _ _ (by decide),
    BitVec.setWidth_setWidth_of_le _ (by decide), BitVec.setWidth_eq]
  rfl

/-- The seed transformation as a slice (R80). -/
theorem scramble_eq (v : Word64) : scramble v = (v ^^^ 0x00000005DEECE66D#64).extractLsb' 0 48 := by
  unfold scramble
  rw [mask_truncates, BitVec.setWidth_eq_extractLsb' (by decide)]
  rfl

/-! ### The extractor -/

/-- The word of `Next(b)` as a number (R92). -/
theorem extract_toNat (b : Nat) (x : Lcg) : (extract b x).toNat = x.toNat / 2 ^ (48 - b) % 2 ^ 32 := by
  have hx := x.isLt
  unfold extract
  rw [BitVec.toNat_setWidth, BitVec.toNat_ushiftRight, BitVec.toNat_setWidth,
    Nat.mod_eq_of_lt (show x.toNat < 2 ^ 64 by omega), Nat.shiftRight_eq_div_pow]

@[simp] theorem draw_fst (b : Nat) (x : Lcg) : (draw b x).1 = extract b (advance x) := rfl
@[simp] theorem draw_snd (b : Nat) (x : Lcg) : (draw b x).2 = advance x := rfl

/-! ### FILL's loop -/

@[simp] theorem fillLoop_zero (n : Nat) (x : Lcg) : fillLoop n x 0 = ([], x) := rfl

theorem fillLoop_succ (n c : Nat) (x : Lcg) : fillLoop n x (c + 1) =
    ((fillLoop n x c).1 ++ [fillBeat (min 4 (n - 4 * c)) (extract 32 (advance (fillLoop n x c).2))],
      advance (fillLoop n x c).2) := rfl

/-- The loop makes one advance for each chunk. -/
theorem fillLoop_state (n c : Nat) (x : Lcg) : (fillLoop n x c).2 = advances c x := by
  induction c with
  | zero => rfl
  | succ c ih => rw [fillLoop_succ, advances_succ, ih]

/-- The beats of the loop, each from its own word: the `i`-th takes the `i+1`-st new state. -/
theorem fillLoop_beats (n c : Nat) (x : Lcg) : (fillLoop n x c).1 =
    (List.range c).map fun i => fillBeat (min 4 (n - 4 * i)) (extract 32 (advances (i + 1) x)) := by
  induction c with
  | zero => rfl
  | succ c ih => rw [fillLoop_succ, ih, fillLoop_state, List.range_succ, List.map_append]; rfl

/-- A chunk of 1 to 4 bytes is a legal beat (R67). -/
theorem fillBeat_wf {k : Nat} (h₁ : 1 ≤ k) (h₄ : k ≤ 4) (w : Word32) : (fillBeat k w).wf = true := by
  have : k = 1 ∨ k = 2 ∨ k = 3 ∨ k = 4 := by omega
  have hd : ∀ k, k ≤ 4 → ((w.setWidth (8 * k)).setWidth 64).toNat < 2 ^ (8 * k) := by
    intro k hk
    rw [BitVec.toNat_setWidth]
    exact lt_of_le_of_lt (Nat.mod_le _ _) (w.setWidth (8 * k)).isLt
  have := hd k h₄
  rcases ‹_ ∨ _› with rfl | rfl | rfl | rfl <;> simpa [Beat.wf, fillBeat] using this

/-- Every beat FILL emits is legal: no chunk before the last is short, and the last is not empty. -/
theorem fillLoop_wf (n : Nat) (x : Lcg) : ∀ b ∈ (fillLoop n x (fillChunks n)).1, b.wf = true := by
  intro b hb
  rw [fillLoop_beats, List.mem_map] at hb
  obtain ⟨i, hi, rfl⟩ := hb
  have : i < (n + 3) / 4 := List.mem_range.mp hi
  exact fillBeat_wf (by omega) (by omega) _

/-! ### The sampler -/

@[simp] theorem rejectionLoop_zero (m : Word32) (x : Lcg) : rejectionLoop m 0 x = none := rfl

theorem samplePass_eq (m : Word32) (x : Lcg) : samplePass m x =
    (if accepted m (extract 31 (advance x)) then some (residue m (extract 31 (advance x))) else none, advance x) := rfl

/-- A pass with a result ends any loop. -/
theorem loopUntil_exit {pass : Lcg → Option Word32 × Lcg} {fuel : Nat} {x y : Lcg} {res : Word32}
    (h : pass x = (some res, y)) : loopUntil pass (fuel + 1) x = some (res, y) := by
  rw [loopUntil, h]

/-- A pass without a result goes round again. -/
theorem loopUntil_again {pass : Lcg → Option Word32 × Lcg} {fuel : Nat} {x y : Lcg} (h : pass x = (none, y)) :
    loopUntil pass (fuel + 1) x = loopUntil pass fuel y := by
  rw [loopUntil, h]

/-- An accepted draw ends the loop. -/
theorem rejectionLoop_accept {m : Word32} {fuel : Nat} {x : Lcg} (h : accepted m (extract 31 (advance x)) = true) :
    rejectionLoop m (fuel + 1) x = some (residue m (extract 31 (advance x)), advance x) :=
  loopUntil_exit (by rw [samplePass_eq, if_pos h])

/-- A rejected draw goes round again. -/
theorem rejectionLoop_reject {m : Word32} {fuel : Nat} {x : Lcg} (h : accepted m (extract 31 (advance x)) = false) :
    rejectionLoop m (fuel + 1) x = rejectionLoop m fuel (advance x) :=
  loopUntil_again (by rw [samplePass_eq, h]; rfl)

/-- What the loop answers: the first accepted draw among as many as the fuel allows, and the state after it. -/
theorem rejectionLoop_some {m res : Word32} {fuel : Nat} {x y : Lcg} (h : rejectionLoop m fuel x = some (res, y)) :
    ∃ j, 1 ≤ j ∧ j ≤ fuel ∧ y = advances j x ∧ accepted m (extract 31 y) = true ∧ res = residue m (extract 31 y) ∧
      ∀ i, 1 ≤ i → i < j → accepted m (extract 31 (advances i x)) = false := by
  induction fuel generalizing x with
  | zero => cases h
  | succ fuel ih =>
    cases ha : accepted m (extract 31 (advance x)) with
    | true =>
      rw [rejectionLoop_accept ha, Option.some.injEq, Prod.mk.injEq] at h
      obtain ⟨rfl, rfl⟩ := h
      exact ⟨1, le_refl _, by omega, rfl, ha, rfl, by omega⟩
    | false =>
      rw [rejectionLoop_reject ha] at h
      obtain ⟨j, h1, h2, h3, h4, h5, h6⟩ := ih h
      refine ⟨j + 1, by omega, by omega, by rw [advances_succ', h3], h4, h5, fun i hi hij => ?_⟩
      obtain ⟨k, rfl⟩ : ∃ k, i = k + 1 := ⟨i - 1, by omega⟩
      rcases Nat.eq_zero_or_pos k with rfl | hk
      · exact ha
      · rw [advances_succ']; exact h6 k hk (by omega)

/-- The loop ends at the first accepted draw, if the fuel reaches it. -/
theorem rejectionLoop_eq {m : Word32} {fuel j : Nat} {x : Lcg} (h1 : 1 ≤ j) (hf : j ≤ fuel)
    (ha : accepted m (extract 31 (advances j x)) = true)
    (hr : ∀ i, 1 ≤ i → i < j → accepted m (extract 31 (advances i x)) = false) :
    rejectionLoop m fuel x = some (residue m (extract 31 (advances j x)), advances j x) := by
  induction fuel generalizing x j with
  | zero => omega
  | succ fuel ih =>
    obtain ⟨k, rfl⟩ : ∃ k, j = k + 1 := ⟨j - 1, by omega⟩
    rcases Nat.eq_zero_or_pos k with rfl | hk
    · exact rejectionLoop_accept ha
    · have h0 : accepted m (extract 31 (advance x)) = false := hr 1 (le_refl _) (by omega)
      rw [rejectionLoop_reject h0, advances_succ']
      rw [advances_succ'] at ha
      refine ih hk (by omega) ha fun i hi hij => ?_
      rw [← advances_succ']; exact hr (i + 1) (by omega) (by omega)

/-- Everything the sampler can answer: for a power of two the scaled word of one draw, else the first accepted draw
reduced, within the fuel; and the state after that draw. -/
theorem sample_some {m res : Word32} {x y : Lcg} (h : sample m x = some (res, y)) :
    (isPow2 m = true ∧ y = advance x ∧ res = scale m (extract 31 y)) ∨
    (isPow2 m = false ∧ ∃ j, 1 ≤ j ∧ j ≤ Config.samplerFuel ∧ y = advances j x ∧ accepted m (extract 31 y) = true ∧
      res = residue m (extract 31 y) ∧ ∀ i, 1 ≤ i → i < j → accepted m (extract 31 (advances i x)) = false) := by
  unfold sample at h
  split at h
  · next hp =>
    rw [Option.some.injEq, Prod.mk.injEq] at h
    obtain ⟨rfl, rfl⟩ := h
    exact .inl ⟨hp, rfl, rfl⟩
  · next hp => exact .inr ⟨by simpa using hp, rejectionLoop_some h⟩

/-- A bound that is not positive faults, whatever SEEDED (R152, R156). -/
theorem State.bounded_nonpos {s : State} {op : Op} {m : Word32} (h : m.toInt ≤ 0) :
    s.bounded op m = .next (s.raise .boundNonpos op) := by
  have hb : boundBad m = true := decide_eq_true h
  unfold State.bounded; rw [if_pos hb]

/-- A positive bound before the first SEED faults (R153). -/
theorem State.bounded_unseeded {s : State} {op : Op} {m : Word32} (h : 0 < m.toInt) (hs : s.seeded = false) :
    s.bounded op m = .next (s.raise .notSeeded op) := by
  have hb : ¬boundBad m = true := fun hb => absurd (of_decide_eq_true hb) (by omega)
  unfold State.bounded; rw [if_neg hb, State.ifSeeded_unseeded hs]

/-- A positive bound on a seeded block delivers what the sampler answers (R131). -/
theorem State.bounded_sample {s : State} {op : Op} {m res : Word32} {x y : Lcg} (h : 0 < m.toInt)
    (hs : s.seeded = true) (hx : s.state = some x) (hr : sample m x = some (res, y)) :
    s.bounded op m = .next ((s.writeState y).emitValue (res.setWidth 64)) := by
  have hb : ¬boundBad m = true := fun hb => absurd (of_decide_eq_true hb) (by omega)
  unfold State.bounded; rw [if_neg hb, State.ifSeeded_seeded hs hx, hr]

/-- Three ways a bound answers a next state (R131, R135, R156). -/
theorem State.bounded_next {s t : State} {op : Op} {m : Word32} (h : s.bounded op m = .next t) :
    (m.toInt ≤ 0 ∧ t = s.raise .boundNonpos op) ∨
    (0 < m.toInt ∧ s.seeded = false ∧ t = s.raise .notSeeded op) ∨
    ∃ x res y, 0 < m.toInt ∧ s.seeded = true ∧ s.state = some x ∧ sample m x = some (res, y) ∧
      t = (s.writeState y).emitValue (res.setWidth 64) := by
  unfold State.bounded boundBad at h
  split at h
  · next hb => injection h with h; exact .inl ⟨by simpa using hb, h.symm⟩
  · next hb =>
    have hp : 0 < m.toInt := by simpa using hb
    rcases State.ifSeeded_next h with ⟨hs, rfl⟩ | ⟨x, hs, hx, h⟩
    · exact .inr (.inl ⟨hp, hs, rfl⟩)
    · refine .inr (.inr ?_)
      split at h
      · next res y he => injection h with h; exact ⟨x, res, y, hp, hs, hx, he, h.symm⟩
      · cases h

/-! ### The pins -/

/-- `rst` wins (R170). -/
theorem State.event_reset {s : State} (h : s.pins.rst = true) : s.event = .reset := by
  unfold State.event; rw [if_pos h]

/-- A presented word transfers when the block is ready (R176). -/
theorem State.event_command {s : State} {w : CommandWord} (hr : s.pins.rst = false) (hw : s.pins.cmd = some w)
    (hb : s.busy = false) (hf : s.fault = none) : s.event = .command w := by
  unfold State.event State.cmdReady; simp [hr, hw, hb, hf]

/-- Without `rst` and without readiness, a beat transfers when one waits and the host takes it; else nothing happens
(R158, R176). -/
theorem State.event_not_ready {s : State} (hr : s.pins.rst = false) (hc : s.cmdReady = false) :
    s.event = if (s.rspValid && s.pins.rspReady) = true then .transfer else .idle := by
  unfold State.event
  rw [if_neg (by rw [hr]; decide), hc]
  cases s.pins.cmd <;> rfl

/-- A word presented at the head of the host's list transfers exactly when the block accepts commands (R176). -/
theorem State.event_present (s : State) (w : CommandWord) :
    (s.present w).event = if s.busy = false ∧ s.fault = none then .command w else .idle := by
  by_cases h : s.busy = false ∧ s.fault = none
  · rw [if_pos h]; exact State.event_command rfl rfl h.1 h.2
  · rw [if_neg h, State.event_not_ready rfl, if_neg]
    · simp
    · unfold State.cmdReady
      cases hb : s.busy <;> cases hf : s.fault <;> simp_all

/-- When the pins give a command, the block was ready for it and it is the presented word. -/
theorem State.event_eq_command {s : State} {w : CommandWord} (h : s.event = .command w) :
    s.pins.rst = false ∧ s.pins.cmd = some w ∧ s.busy = false ∧ s.fault = none := by
  unfold State.event State.cmdReady at h
  split at h
  · cases h
  · next hr =>
    split at h
    · next v hv =>
      split at h
      · next hc => cases h; simp at hc; exact ⟨by simpa using hr, hv, hc.1.2, hc.2⟩
      · split at h <;> cases h
    · split at h <;> cases h

/-- When the pins give a reset, `rst` is asserted. -/
theorem State.event_eq_reset {s : State} (h : s.event = .reset) : s.pins.rst = true := by
  by_contra hr
  unfold State.event at h
  rw [if_neg hr] at h
  repeat' split at h
  all_goals cases h

/-- A transfer has a beat to transfer. -/
theorem State.event_eq_transfer {s : State} (h : s.event = .transfer) :
    s.pins.rst = false ∧ s.pins.rspReady = true ∧ ∃ b rest, s.pending = b :: rest := by
  have key : (s.rspValid && s.pins.rspReady) = true := by
    unfold State.event at h
    repeat' split at h
    all_goals first
      | assumption
      | cases h
  unfold State.rspValid at key
  simp at key
  refine ⟨key.1.1, key.2, ?_⟩
  cases hp : s.pending with
  | nil => exact absurd hp key.1.2
  | cons b rest => exact ⟨b, rest, rfl⟩

end Sys2Proof.Machine
end

