-- ==== Sys2Proof/Laws/Exec.lean ====
section
/-! SUPPORT. Everything a command can do, said once: it enters the first fault that applies, or it is SEED, or it runs on
the value of STATE and leaves an advanced STATE and some legal beats. -/

namespace Sys2Proof.Machine

/-! ### Each command as one check and one body -/

theorem exec_seed (v : Word64) (s : State) : exec (.seed v) s = .next (s.writeState (scramble v)).setSeeded := rfl

theorem exec_getseed (s : State) :
    exec .getseed s = s.ifSeeded opGetseed fun x => .next (s.emitValue (x.setWidth 64)) := rfl

theorem exec_step (b : Nat) (s : State) : exec (.step b) s =
    if stepBitsBad b then .next (s.raise .stepBits opStep)
    else s.ifSeeded opStep fun x =>
      .next ((s.writeState (advance x)).emitValue ((extract b (advance x)).signExtend 64)) := rfl

theorem exec_nexti32 (s : State) : exec .nexti32 s = s.ifSeeded opNexti32 fun x =>
    .next ((s.writeState (advance x)).emitValue ((extract 32 (advance x)).signExtend 64)) := rfl

theorem exec_nextu32 (s : State) : exec .nextu32 s = s.ifSeeded opNextu32 fun x =>
    .next ((s.writeState (advance x)).emitValue ((extract 32 (advance x)).setWidth 64)) := rfl

theorem exec_nexti64 (s : State) : exec .nexti64 s = s.ifSeeded opNexti64 fun x =>
    .next ((s.writeState (advance (advance x))).emitValue
      (combine64 (extract 32 (advance x)) (extract 32 (advance (advance x))))) := rfl

theorem exec_nextu64 (s : State) : exec .nextu64 s = s.ifSeeded opNextu64 fun x =>
    .next ((s.writeState (advance (advance x))).emitValue
      (combine64 (extract 32 (advance x)) (extract 32 (advance (advance x))))) := rfl

theorem exec_nextbool (s : State) : exec .nextbool s = s.ifSeeded opNextbool fun x =>
    .next ((s.writeState (advance x)).emitValue (((extract 1 (advance x)).extractLsb' 0 1).setWidth 64)) := rfl

theorem exec_nextf32 (s : State) : exec .nextf32 s = s.ifSeeded opNextf32 fun x =>
    .next ((s.writeState (advance x)).emitValue ((f32 ((extract 24 (advance x)).extractLsb' 0 24)).setWidth 64)) := rfl

theorem exec_nextf64 (s : State) : exec .nextf64 s = s.ifSeeded opNextf64 fun x =>
    .next ((s.writeState (advance (advance x))).emitValue
      (f64 (combine53 (extract 26 (advance x)) (extract 27 (advance (advance x)))))) := rfl

theorem exec_boundi32 (m : Word32) (s : State) : exec (.boundi32 m) s = s.bounded opBoundi32 m := rfl

theorem exec_boundu32 (m : Word32) (s : State) : exec (.boundu32 m) s = s.bounded opBoundu32 m := rfl

theorem exec_fill (n : Nat) (s : State) : exec (.fill n) s = s.ifSeeded opFill fun x =>
    .next ((s.writeState (fillLoop n x (fillChunks n)).2).emitAll (fillLoop n x (fillChunks n)).1) := rfl

/-! ### The sampler in the terms of claims -/

/-- The word of `Next(31)` in a rejection loop, as claims name it (R131). -/
theorem extract_eq_loopDraw (x : Lcg) (j : Nat) : extract 31 (advances j x) = loopDraw x j := by
  unfold loopDraw
  generalize advances j x = y
  apply BitVec.eq_of_toNat_eq
  have := y.isLt
  rw [extract_toNat, BitVec.toNat_setWidth, BitVec.extractLsb'_toNat, Nat.shiftRight_eq_div_pow]
  omega

/-- `val` of R131 as a bit-vector remainder. -/
theorem residue_eq (m bits : Word32) : residue m bits = bits % m := by
  unfold residue
  apply BitVec.eq_of_toNat_eq
  rw [BitVec.toNat_ofNat, BitVec.toNat_umod, Nat.mod_eq_of_lt]
  exact lt_of_le_of_lt (Nat.mod_le _ _) bits.isLt

/-- The acceptance test as claims name it (R131). -/
theorem accepted_iff (m bits : Word32) : accepted m bits = true ↔ 0 ≤ (loopTest m bits).toInt := by
  unfold accepted loopTest; rw [residue_eq, decide_eq_true_iff]

/-- The first accepted draw, in the terms of the loop's own test. -/
theorem firstAccepted_iff {m : Word32} {x : Lcg} {j : Nat} : FirstAccepted m x j ↔
    1 ≤ j ∧ accepted m (extract 31 (advances j x)) = true ∧
      ∀ i, 1 ≤ i → i < j → accepted m (extract 31 (advances i x)) = false := by
  unfold FirstAccepted
  simp only [extract_eq_loopDraw, accepted_iff, ← Bool.not_eq_true, not_le]

/-- There is one first accepted draw. -/
theorem FirstAccepted.unique {m : Word32} {x : Lcg} {j k : Nat} (hj : FirstAccepted m x j) (hk : FirstAccepted m x k) :
    j = k := by
  rcases Nat.lt_trichotomy j k with h | h | h
  · exact absurd (hk.2.2 j hj.1 h) (not_lt.mpr hj.2.1)
  · exact h
  · exact absurd (hj.2.2 k hk.1 h) (not_lt.mpr hk.2.1)

/-- A fixed number of advances is the number (R178). -/
theorem advancesBy_fixed {i : Instr} {n : Nat} (h : fixedAdvances i = some n) (x : Lcg) (k : Nat) :
    AdvancesBy i x k ↔ k = n := by
  unfold AdvancesBy; rw [h]

/-- Without a fixed number it is the index of the first accepted draw (R178). -/
theorem advancesBy_loop {i : Instr} {m : Word32} (hi : i = .boundi32 m ∨ i = .boundu32 m) (h : fixedAdvances i = none)
    (x : Lcg) (k : Nat) : AdvancesBy i x k ↔ FirstAccepted m x k := by
  unfold AdvancesBy
  rw [h]
  refine ⟨?_, fun hf => ⟨m, hi, hf⟩⟩
  rintro ⟨m', hm, hf⟩
  rcases hi with rfl | rfl <;> rcases hm with hm | hm <;> cases hm <;> exact hf

/-! ### What a next state can be -/

/-- What a command that passes its checks does to a seeded state with STATE = x: `k` advances and the beats `bs`. -/
structure Runs (i : Instr) (s : State) (x : Lcg) (k : Nat) (bs : List Beat) (t : State) : Prop where
  seeded : s.seeded = true
  state : s.state = some x
  passes : firstCause i s.seeded = none
  next : t = (s.writeState (advances k x)).emitAll bs
  wf : ∀ b ∈ bs, b.wf = true
  count : AdvancesBy i x k
  value : (∀ n, i ≠ .fill n) → ∃ d, bs = [⟨8#4, d⟩]

/-- IsPow2 as the model computes it (R130). -/
theorem isPow2_iff (m : Word32) : isPow2 m = true ↔ ∃ k < 32, m.toNat = 2 ^ k := by
  unfold isPow2
  simp only [List.any_eq_true, List.mem_range, beq_iff_eq]

/-- A value beat is legal (R67). -/
theorem value_wf (d : Word64) : ∀ b ∈ [(⟨8#4, d⟩ : Beat)], b.wf = true := by
  intro b hb; rw [List.mem_singleton.mp hb]; rfl

/-- Writing back the value STATE holds changes nothing. -/
theorem State.writeState_self {s : State} {x : Lcg} (h : s.state = some x) : s.writeState x = s := by
  unfold State.writeState; rw [← h]

/-- One inversion for every command whose only check is SEEDED and whose body leaves `k` advances and one value beat. -/
theorem ifSeeded_runs {i : Instr} {s t : State} {op : Op} {k : Nat} {d : Lcg → Word64} (ho : i.op = op)
    (hc : ∀ b : Bool, firstCause i b = if b then none else some .notSeeded) (hk : fixedAdvances i = some k)
    (h : s.ifSeeded op (fun x => .next ((s.writeState (advances k x)).emitValue (d x))) = .next t) :
    (∃ c, firstCause i s.seeded = some c ∧ t = s.raise c i.op) ∨ ∃ x k bs, Runs i s x k bs t := by
  rcases State.ifSeeded_next h with ⟨hs, rfl⟩ | ⟨x, hs, hx, ht⟩
  · exact .inl ⟨.notSeeded, by rw [hc, hs]; rfl, by rw [ho]⟩
  · injection ht with ht
    refine .inr ⟨x, k, [⟨8#4, d x⟩], hs, hx, by rw [hc, hs]; rfl, ht.symm, value_wf _,
      (advancesBy_fixed hk x k).mpr rfl, fun _ => ⟨_, rfl⟩⟩

/-- The inversion for both bounds. -/
theorem bounded_runs {i : Instr} {s t : State} {op : Op} {m : Word32} (hi : i = .boundi32 m ∨ i = .boundu32 m)
    (ho : i.op = op)
    (hc : ∀ b : Bool, firstCause i b =
      if m.toInt ≤ 0 then some .boundNonpos else if b then none else some .notSeeded)
    (hk : fixedAdvances i = if ∃ k < 32, m.toNat = 2 ^ k then some 1 else none)
    (h : s.bounded op m = .next t) :
    (∃ c, firstCause i s.seeded = some c ∧ t = s.raise c i.op) ∨ ∃ x k bs, Runs i s x k bs t := by
  rcases State.bounded_next h with ⟨hm, rfl⟩ | ⟨hm, hs, rfl⟩ | ⟨x, res, y, hm, hs, hx, hr, rfl⟩
  · exact .inl ⟨.boundNonpos, by rw [hc, if_pos hm], by rw [ho]⟩
  · exact .inl ⟨.notSeeded, by rw [hc, hs, if_neg (by omega)]; rfl, by rw [ho]⟩
  · have hc' : firstCause i s.seeded = none := by rw [hc, hs, if_neg (by omega)]; rfl
    refine .inr ?_
    rcases sample_some hr with ⟨hp, rfl, -⟩ | ⟨hp, j, h1, -, rfl, ha, -, hf⟩
    · exact ⟨x, 1, [⟨8#4, res.setWidth 64⟩], hs, hx, hc', rfl, value_wf _,
        (advancesBy_fixed (by rw [hk, if_pos ((isPow2_iff m).mp hp)]) x 1).mpr rfl, fun _ => ⟨_, rfl⟩⟩
    · have hn : fixedAdvances i = none := by
        rw [hk, if_neg fun hp' => by rw [(isPow2_iff m).mpr hp'] at hp; cases hp]
      exact ⟨x, j, [⟨8#4, res.setWidth 64⟩], hs, hx, hc', rfl, value_wf _,
        (advancesBy_loop hi hn x j).mpr (firstAccepted_iff.mpr ⟨h1, ha, hf⟩), fun _ => ⟨_, rfl⟩⟩

/-- EVERYTHING A COMMAND CAN DO when it answers a next state: fault entry with the first cause that applies (R156, R157),
SEED (R80), or a run on STATE's value. -/
theorem exec_next {i : Instr} {s t : State} (h : exec i s = .next t) :
    (∃ c, firstCause i s.seeded = some c ∧ t = s.raise c i.op) ∨
    (∃ v, i = .seed v ∧ t = (s.writeState (scramble v)).setSeeded) ∨
    ∃ x k bs, Runs i s x k bs t := by
  have lift : ((∃ c, firstCause i s.seeded = some c ∧ t = s.raise c i.op) ∨ ∃ x k bs, Runs i s x k bs t) → _ :=
    fun h => h.imp_right (Or.inr (a := ∃ v, i = .seed v ∧ t = (s.writeState (scramble v)).setSeeded))
  cases i with
  | seed v => injection h with h; exact .inr (.inl ⟨v, rfl, h.symm⟩)
  | getseed =>
    rcases State.ifSeeded_next h with ⟨hs, rfl⟩ | ⟨x, hs, hx, ht⟩
    · exact .inl ⟨.notSeeded, by rw [hs]; rfl, rfl⟩
    · injection ht with ht
      refine .inr (.inr ⟨x, 0, [⟨8#4, x.setWidth 64⟩], hs, hx, by rw [hs]; rfl, ?_, value_wf _, rfl, fun _ => ⟨_, rfl⟩⟩)
      rw [advances_zero, State.writeState_self hx]; exact ht.symm
  | step b =>
    simp only [exec, execStep] at h
    split at h
    · next hb =>
      injection h with h
      have hb : 48 < b := of_decide_eq_true hb
      exact .inl ⟨.stepBits, by simp [firstCause, hb], h.symm⟩
    · next hb =>
      have hb : ¬48 < b := fun hlt => hb (decide_eq_true hlt)
      exact lift (ifSeeded_runs (k := 1) rfl (fun c => by simp [firstCause, hb]) rfl h)
  | nexti32 => exact lift (ifSeeded_runs (k := 1) rfl (fun _ => rfl) rfl h)
  | nextu32 => exact lift (ifSeeded_runs (k := 1) rfl (fun _ => rfl) rfl h)
  | nexti64 => exact lift (ifSeeded_runs (k := 2) rfl (fun _ => rfl) rfl h)
  | nextu64 => exact lift (ifSeeded_runs (k := 2) rfl (fun _ => rfl) rfl h)
  | nextbool => exact lift (ifSeeded_runs (k := 1) rfl (fun _ => rfl) rfl h)
  | nextf32 => exact lift (ifSeeded_runs (k := 1) rfl (fun _ => rfl) rfl h)
  | nextf64 => exact lift (ifSeeded_runs (k := 2) rfl (fun _ => rfl) rfl h)
  | boundi32 m => exact lift (bounded_runs (.inl rfl) rfl (fun _ => rfl) rfl h)
  | boundu32 m => exact lift (bounded_runs (.inr rfl) rfl (fun _ => rfl) rfl h)
  | fill n =>
    rcases State.ifSeeded_next h with ⟨hs, rfl⟩ | ⟨x, hs, hx, ht⟩
    · exact .inl ⟨.notSeeded, by rw [hs]; rfl, rfl⟩
    · injection ht with ht
      refine .inr (.inr ⟨x, fillChunks n, (fillLoop n x (fillChunks n)).1, hs, hx, by rw [hs]; rfl, ?_, fillLoop_wf n x,
        rfl, fun hn => absurd rfl (hn n)⟩)
      rw [← fillLoop_state n]; exact ht.symm

/-- No arm of the dispatch refuses. -/
theorem exec_not_refused (i : Instr) (s : State) (r : Refusal) : exec i s ≠ .refused r := by
  have hs : ∀ (op : Op) (f : Lcg → Answer), (∀ x, f x ≠ .refused r) → s.ifSeeded op f ≠ .refused r := by
    intro op f hf
    unfold State.ifSeeded
    repeat' split
    · exact hf _
    · nofun
    · nofun
  have hb : ∀ (op : Op) (m : Word32), s.bounded op m ≠ .refused r := by
    intro op m
    unfold State.bounded
    split
    · nofun
    · exact hs _ _ fun x => by split <;> nofun
  cases i with
  | seed v => nofun
  | getseed => exact hs _ _ fun _ => nofun
  | step b =>
    simp only [exec, execStep]
    split
    · nofun
    · exact hs _ _ fun _ => nofun
  | nexti32 => exact hs _ _ fun _ => nofun
  | nextu32 => exact hs _ _ fun _ => nofun
  | nexti64 => exact hs _ _ fun _ => nofun
  | nextu64 => exact hs _ _ fun _ => nofun
  | nextbool => exact hs _ _ fun _ => nofun
  | nextf32 => exact hs _ _ fun _ => nofun
  | nextf64 => exact hs _ _ fun _ => nofun
  | boundi32 m => exact hb _ m
  | boundu32 m => exact hb _ m
  | fill n => exact hs _ _ fun _ => nofun

/-- EVERYTHING A STEP CAN DO when it answers a next state: the sample is used and nothing else changes; `rst` resets; a
beat goes to the host; or an accepted word runs or enters ILLEGAL_OP, and BUSY settles. -/
theorem step_next {s t : State} (h : step s = .next t) :
    (s.event = .idle ∧ t = s.tick) ∨
    (s.event = .reset ∧ t = s.tick.hardReset) ∨
    (s.event = .transfer ∧ t = s.tick.transferBeat.settle) ∨
    ∃ w, s.event = .command w ∧
      ((∃ i u, decode w = .ok i ∧ exec i s.tick.accept = .next u ∧ t = u.settle) ∨
        (opField w ∉ assignedOps ∧ t = (s.tick.accept.raise .illegalOp (opField w)).settle)) := by
  unfold step at h
  split at h
  · next he => injection h with h; exact .inl ⟨he, h.symm⟩
  · next he => injection h with h; exact .inr (.inl ⟨he, h.symm⟩)
  · next he => injection h with h; exact .inr (.inr (.inl ⟨he, h.symm⟩))
  · next w he =>
    refine .inr (.inr (.inr ⟨w, he, ?_⟩))
    split at h
    · next i hd =>
      obtain ⟨u, hu, ht⟩ := settleAnswer_next h
      exact .inl ⟨i, u, hd, hu, ht⟩
    · next op hd =>
      injection h with h
      obtain ⟨rfl, ho⟩ := decode_error_op hd
      exact .inr ⟨ho, h.symm⟩

/-- A step in which no command is accepted and no reset asserted changes neither STATE, SEEDED, the fault record nor the
beats emitted so far (R166, R176). -/
theorem step_not_ready {s : State} (hr : s.pins.rst = false) (hc : s.cmdReady = false) :
    ∃ t, step s = .next t ∧ t.state = s.state ∧ t.seeded = s.seeded ∧ t.fault = s.fault ∧ t.beats = s.beats ∧
      t.inputs = s.inputs.tail := by
  have he := State.event_not_ready hr hc
  split at he
  · refine ⟨s.tick.transferBeat.settle, by unfold step; rw [he], ?_, ?_, ?_, ?_, ?_⟩ <;> simp
  · exact ⟨s.tick, by unfold step; rw [he], rfl, rfl, rfl, rfl, rfl⟩

end Sys2Proof.Machine
end

