-- ==== Sys2Proof/Laws/PerInstr.lean ====
section
/-! SUPPORT. A statement about every command as syntax, one lemma per constructor: the encoder writes the command's own
OP, one of the thirteen, and leaves every ARG bit its form ignores at 0 (R62, R64, R69). -/

namespace Sys2Proof.Laws

/-- The encoding of the command has its OP in bits 71:64 and 0 in every ignored ARG bit. -/
def EncodesFields.Statement (i : Instr) : Prop :=
  opField (encode i) = i.op ∧ i.op ∈ assignedOps ∧ argField (encode i) &&& ~~~(usedArgBits i.op) = 0

/-- A command whose form uses every ARG bit. -/
theorem EncodesFields.of_full {i : Instr} (hm : i.op ∈ assignedOps) (h : usedArgBits i.op = 0xFFFFFFFFFFFFFFFF#64) :
    EncodesFields.Statement i := by
  refine ⟨opField_encode i, hm, ?_⟩
  rw [h]
  exact BitVec.and_zero

/-- A command whose encoding has ARG = 0. -/
theorem EncodesFields.of_zero {i : Instr} (hm : i.op ∈ assignedOps) (h : i.arg = 0) : EncodesFields.Statement i := by
  refine ⟨opField_encode i, hm, ?_⟩
  rw [argField_encode, h]
  exact BitVec.zero_and

/-- A command whose encoding has its operand in ARG[31:0]. -/
theorem EncodesFields.of_low {i : Instr} {m : Word32} (hm : i.op ∈ assignedOps) (h : i.arg = m.setWidth 64)
    (hu : usedArgBits i.op = 0x00000000FFFFFFFF#64) : EncodesFields.Statement i := by
  refine ⟨opField_encode i, hm, ?_⟩
  rw [argField_encode, h, hu]
  ext k hk
  by_cases hlt : k < 32
  · have : k ≤ 31 := by omega
    interval_cases k <;> simp
  · simp [BitVec.getLsbD_of_ge m k (by omega)]

theorem EncodesFields.seed (v : Word64) : EncodesFields.Statement (.seed v) :=
  EncodesFields.of_full (List.mem_of_elem_eq_true rfl) rfl
theorem EncodesFields.getseed : EncodesFields.Statement .getseed := EncodesFields.of_zero (by decide) rfl
theorem EncodesFields.step (bits : Nat) : EncodesFields.Statement (.step bits) :=
  EncodesFields.of_full (List.mem_of_elem_eq_true rfl) rfl
theorem EncodesFields.nexti32 : EncodesFields.Statement .nexti32 := EncodesFields.of_zero (by decide) rfl
theorem EncodesFields.nextu32 : EncodesFields.Statement .nextu32 := EncodesFields.of_zero (by decide) rfl
theorem EncodesFields.nexti64 : EncodesFields.Statement .nexti64 := EncodesFields.of_zero (by decide) rfl
theorem EncodesFields.nextu64 : EncodesFields.Statement .nextu64 := EncodesFields.of_zero (by decide) rfl
theorem EncodesFields.nextbool : EncodesFields.Statement .nextbool := EncodesFields.of_zero (by decide) rfl
theorem EncodesFields.nextf32 : EncodesFields.Statement .nextf32 := EncodesFields.of_zero (by decide) rfl
theorem EncodesFields.nextf64 : EncodesFields.Statement .nextf64 := EncodesFields.of_zero (by decide) rfl
theorem EncodesFields.boundi32 (m : Word32) : EncodesFields.Statement (.boundi32 m) :=
  EncodesFields.of_low (m := m) (List.mem_of_elem_eq_true rfl) rfl rfl
theorem EncodesFields.boundu32 (m : Word32) : EncodesFields.Statement (.boundu32 m) :=
  EncodesFields.of_low (m := m) (List.mem_of_elem_eq_true rfl) rfl rfl
theorem EncodesFields.fill (n : Nat) : EncodesFields.Statement (.fill n) :=
  EncodesFields.of_full (List.mem_of_elem_eq_true rfl) rfl

end Sys2Proof.Laws
end

