-- ==== Sys2Proof/Laws/Run.lean ====
section
/-! SUPPORT. Runs of several steps. -/

namespace Sys2Proof.Machine

/-- No step leaves the state. -/
theorem run_zero (s : State) : core.run 0 s = .next s := rfl

/-- A run of any machine goes on from the state its first step answers. -/
theorem core_run_succ {M : Host.Core} {k : Nat} {s t : M.State} (h : M.step s = .next t) :
    M.run (k + 1) s = M.run k t := by
  rw [Host.Core.run, h]

/-- A run goes on from the state its first step answers. -/
theorem run_succ {k : Nat} {s t : State} (h : step s = .next t) : core.run (k + 1) s = core.run k t :=
  core_run_succ (M := core) h

/-- No command runs the list to its end. -/
theorem runCommands_nil (s : State) : runCommands [] s = .next s := rfl

/-- A run of commands goes on from the state its first command answers. -/
theorem runCommands_cons {i : Instr} {is : List Instr} {s t : State} (hf : s.fault = none) (h : exec i s = .next t) :
    runCommands (i :: is) s = runCommands is t := by
  have hn : s.noFault = true := by unfold State.noFault; rw [hf]; rfl
  rw [runCommands, if_pos hn, h]

/-- A faulted block runs no further command (R158). -/
theorem runCommands_faulted {is : List Instr} {s : State} (hf : s.fault.isSome = true) :
    runCommands is s = .next s := by
  cases is with
  | nil => rfl
  | cons i is =>
    have hn : ¬s.noFault = true := by
      unfold State.noFault; cases h : s.fault <;> simp_all
    rw [runCommands, if_neg hn]

end Sys2Proof.Machine
end

