-- ==== Sys2Proof/Tests/Slice0.lean ====
section
/-! SUPPORT. Tests. Expected values come from spec/95_test_vectors.md (the section is named beside each), or from the
encoding of R60 to R64. The witnesses at the end meet the hypotheses of the obligations of
Sys2Proof/Certificates/Slice0/Obligations.lean, one or more for each. -/

namespace Sys2Proof.Tests

open Sys2Proof Sys2Proof.Machine

/-- A block right after reset and SEED of this seed. -/
def seededWith (seed : Word64) : State := { State.reset with state := some (scramble seed), seeded := true }

/-- The next state of an answer. -/
def nextOf : Answer → Option State
  | .next s => some s
  | .fault _ => none
  | .refused _ => none

/-- What the tables of 95_test_vectors.md show of a command: the beats, STATE after it, STATUS after it. -/
def shows (i : Instr) (s : State) : Option (List Beat × Option Lcg × BitVec 16) :=
  (nextOf (exec i s)).map fun t => (t.pending, t.state, t.status)

/-! ### WellFormed -/

theorem test_wf_refuses_step : (Instr.step (2 ^ 64)).wf = false := by decide
theorem test_wf_refuses_fill : (Instr.fill (2 ^ 64)).wf = false := by decide
theorem test_wf_accepts_largest : (Instr.step (2 ^ 64 - 1)).wf = true ∧ (Instr.fill (2 ^ 64 - 1)).wf = true := by decide

/-! ### Decoding words written out from R60 to R64 -/

theorem test_decode_seed : decode 0x01FFFFFFFFFFFFFFFF#72 = .ok (.seed 0xFFFFFFFFFFFFFFFF#64) := by decide
theorem test_decode_getseed : decode 0x020000000000000007#72 = .ok .getseed := by decide
theorem test_decode_step : decode 0x030000000100000005#72 = .ok (.step 0x100000005) := by decide
theorem test_decode_nexti32 : decode 0x100000000000000000#72 = .ok .nexti32 := by decide
theorem test_decode_nextu32 : decode 0x110000000000000000#72 = .ok .nextu32 := by decide
theorem test_decode_nexti64 : decode 0x120000000000000000#72 = .ok .nexti64 := by decide
theorem test_decode_nextu64 : decode 0x130000000000000000#72 = .ok .nextu64 := by decide
theorem test_decode_nextbool : decode 0x148000000000000001#72 = .ok .nextbool := by decide
theorem test_decode_nextf32 : decode 0x150000000000000000#72 = .ok .nextf32 := by decide
theorem test_decode_nextf64 : decode 0x160000000000000000#72 = .ok .nextf64 := by decide
theorem test_decode_boundi32 : decode 0x200000000100000005#72 = .ok (.boundi32 5#32) := by decide
theorem test_decode_boundu32 : decode 0x210000000080000000#72 = .ok (.boundu32 0x80000000#32) := by decide
theorem test_decode_fill : decode 0x300000000000000007#72 = .ok (.fill 7) := by decide
theorem test_decode_zero : decode 0#72 = .error (.illegalOp 0x00#8) := by decide
theorem test_decode_gap : decode 0x170000000000000000#72 = .error (.illegalOp 0x17#8) := by decide
/-- The word of `SEED 42`, R80's example. -/
theorem test_encode_seed : encode (.seed 42#64) = 0x01000000000000002A#72 := by decide
/-- The opcode table's own words. -/
theorem test_decode_table : decodeTableWord 72 0x210000000000000000 = some (.boundu32 0#32) := by decide

/-! ### Commands (section 3 unless said) -/

theorem test_seed : shows (.seed 0xFFFFFFFFFFFFFFFF#64) State.reset = some ([], some 0xFFFA21131992#48, 0x0001#16) := by
  decide
theorem test_seed_zero_state : shows (.seed 0x5DEECE66D#64) State.reset = some ([], some 0#48, 0x0001#16) := by decide
theorem test_getseed : shows .getseed (seededWith 42#64) =
    some ([⟨8#4, 0x00000005DEECE647#64⟩], some 0x0005DEECE647#48, 0x0001#16) := by decide
theorem test_getseed_unseeded : shows .getseed State.reset = some ([], none, 0x0232#16) := by decide
theorem test_step_48 : shows (.step 48) (seededWith 0#64) =
    some ([⟨8#4, 0xFFFFFFFFB4600A74#64⟩], some 0xBB20B4600A74#48, 0x0001#16) := by decide
theorem test_step_49_unseeded : shows (.step 49) State.reset = some ([], none, 0x0312#16) := by decide
theorem test_nexti32 : shows .nexti32 (seededWith 0#64) =
    some ([⟨8#4, 0xFFFFFFFFBB20B460#64⟩], some 0xBB20B4600A74#48, 0x0001#16) := by decide
theorem test_nextu32 : shows .nextu32 (seededWith 0#64) =
    some ([⟨8#4, 0x00000000BB20B460#64⟩], some 0xBB20B4600A74#48, 0x0001#16) := by decide
theorem test_nexti64_borrow : shows .nexti64 (seededWith 3#64) =
    some ([⟨8#4, 0xBB26934B8FFA0598#64⟩], some 0x8FFA0598B5D8#48, 0x0001#16) := by decide
theorem test_nexti64_positive : shows .nexti64 (seededWith 1#64) =
    some ([⟨8#4, 0xBB1AD57319B89CD8#64⟩], some 0x19B89CD8A106#48, 0x0001#16) := by decide
theorem test_nextu64 : shows .nextu64 (seededWith 0#64) =
    some ([⟨8#4, 0xBB20B45FD4D95138#64⟩], some 0xD4D95138AB6F#48, 0x0001#16) := by decide
theorem test_nextbool_true : shows .nextbool (seededWith 0#64) =
    some ([⟨8#4, 1#64⟩], some 0xBB20B4600A74#48, 0x0001#16) := by decide
theorem test_nextbool_false : shows .nextbool (seededWith 0x17E6C97F129#64) =
    some ([⟨8#4, 0#64⟩], some 0x7FFFFFFFFFFF#48, 0x0001#16) := by decide
theorem test_nextf32 : shows .nextf32 (seededWith 0#64) =
    some ([⟨8#4, 0x000000003F3B20B4#64⟩], some 0xBB20B4600A74#48, 0x0001#16) := by decide
theorem test_nextf32_smallest : shows .nextf32 (seededWith 0x2C6AADAACCC4#64) =
    some ([⟨8#4, 0x0000000033800000#64⟩], some 0x000001000000#48, 0x0001#16) := by decide
theorem test_nextf64 : shows .nextf64 (seededWith 42#64) =
    some ([⟨8#4, 0x3FE74833A06FF457#64⟩], some 0x0DFE8AF71FD9#48, 0x0001#16) := by decide
theorem test_f64_largest : f64 0x1FFFFFFFFFFFFF#64 = 0x3FEFFFFFFFFFFFFF#64 := by decide
theorem test_boundi32_rejects : shows (.boundi32 0x7FFFFFFF#32) (seededWith 0xA9C03990CCC4#64) =
    some ([⟨8#4, 0x0000000021131993#64⟩], some 0x42263326000B#48, 0x0001#16) := by decide
theorem test_boundi32_pow2 : shows (.boundi32 0x40000000#32) (seededWith 0xA9C03990CCC4#64) =
    some ([⟨8#4, 0x000000003FFFFFFF#64⟩], some 0xFFFFFFFE0000#48, 0x0001#16) := by decide
theorem test_boundu32 : shows (.boundu32 0x3B9AC9FF#32) (seededWith 369#64) =
    some ([⟨8#4, 0x0000000023F74229#64⟩], some 0xBF2418518EF7#48, 0x0001#16) := by decide
theorem test_boundu32_fault : shows (.boundu32 0x80000000#32) (seededWith 0#64) =
    some ([], some 0x0005DEECE66D#48, 0x2123#16) := by decide
theorem test_fill_9 : shows (.fill 9) (seededWith 0#64) =
    some ([⟨4#4, 0x00000000BB20B460#64⟩, ⟨4#4, 0x00000000D4D95138#64⟩, ⟨1#4, 0x000000000000007A#64⟩],
      some 0x3D93CB7AB84E#48, 0x0001#16) := by decide
theorem test_fill_0 : shows (.fill 0) (seededWith 0#64) = some ([], some 0x0005DEECE66D#48, 0x0001#16) := by decide
/-- R100's example: the buffer after `FILL 5` from seed 0. -/
theorem test_buffer : bufferBytes [⟨4#4, 0x00000000BB20B460#64⟩, ⟨1#4, 0x0000000000000038#64⟩] =
    [0x60#8, 0xB4#8, 0x20#8, 0xBB#8, 0x38#8] := by decide

/-! ### Steps -/

/-- The first instruction after reset (section 3.7). -/
theorem test_step_first : (nextOf (step (State.reset.withFetchWord 72 0x300000000000000000))).map State.status =
    some 0x3032#16 := by decide
/-- An illegal word of section 3.7. -/
theorem test_step_illegal :
    (nextOf (step ((seededWith 0#64).present 0xFF0000000000000005#72))).map State.status = some 0xFF43#16 := by decide
/-- BUSY while the beat of NEXTI32 waits (R29): STATUS bit 2 with SEEDED. -/
theorem test_step_busy :
    (nextOf (step ((seededWith 0#64).present 0x100000000000000000#72))).map State.status = some 0x0005#16 := by decide

/-! ### Assembler (R69, R70; section 4, P6 for the refusal) -/

/-- "STEP 0x31 ; x" -/
theorem test_assemble_step : assembleLine ['S', 'T', 'E', 'P', ' ', '0', 'x', '3', '1', ' ', ';', ' ', 'x'] =
    some [{ cmd := some 0x030000000000000031#72 }] := by decide
/-- "SEED -1" -/
theorem test_assemble_negative : assembleLine ['S', 'E', 'E', 'D', ' ', '-', '1'] =
    some [{ cmd := some 0x01FFFFFFFFFFFFFFFF#72 }] := by decide
/-- "BOUNDI32 0x100000005" is refused (P6). -/
theorem test_assemble_refuses : assembleLine
    ['B', 'O', 'U', 'N', 'D', 'I', '3', '2', ' ', '0', 'x', '1', '0', '0', '0', '0', '0', '0', '0', '5'] = none := by
  decide
/-- ".word FF:5" -/
theorem test_assemble_word : assembleLine
    ['.', 'w', 'o', 'r', 'd', ' ', 'F', 'F', ':', '0', '0', '0', '0', '0', '0', '0', '0', '0', '0', '0', '0', '0', '0', '0', '5'] =
    some [{ cmd := some 0xFF0000000000000005#72 }] := by decide

/-! ### Witnesses -/

/-- A seeded, idle block on whose command channel a word waits. -/
def waiting (w : CommandWord) : State := (seededWith 0#64).present w

/-- A busy block with one beat waiting, and a host that does or does not take it. -/
def busyWith (ready : Bool) : State :=
  { seededWith 0#64 with busy := true, pending := [⟨8#4, 1#64⟩], inputs := [{ rspReady := ready }] }

/-- A halted block whose host still presents a word. -/
def halted : State := ((seededWith 0#64).raise .stepBits 0x03#8).present 0x010000000000000007#72

theorem witness_DecodeEncode : (Instr.step (2 ^ 64 - 1)).wf = true := by decide
theorem witness_EncodeDecode : decode 0x20FFFFFFFF00000005#72 = .ok (.boundi32 5#32) := by decide
theorem witness_IgnoredBits_none : (0x16#8 : Op) ∈ [0x02#8, 0x10#8, 0x11#8, 0x12#8, 0x13#8, 0x14#8, 0x15#8, 0x16#8] := by
  decide
theorem witness_IgnoredBits_low : (0x21#8 : Op) ∈ [0x20#8, 0x21#8] ∧
    (0xFFFFFFFF00000005#64).extractLsb' 0 32 = (0x0000000000000005#64).extractLsb' 0 32 := by decide
theorem witness_StepRunsDecoded : (waiting 0x100000000000000000#72).pins.rst = false ∧
    (waiting 0x100000000000000000#72).pins.cmd = some 0x100000000000000000#72 ∧
    (waiting 0x100000000000000000#72).busy = false ∧ (waiting 0x100000000000000000#72).fault = none ∧
    decode 0x100000000000000000#72 = .ok .nexti32 := by decide
theorem witness_IllegalOpFaults : (0x22#8 : Op) ∉ assignedOps ∧
    (waiting (0x22#8 ++ 0#64)).pins.cmd = some (0x22#8 ++ 0#64) ∧ (waiting (0x22#8 ++ 0#64)).pins.rst = false ∧
    (waiting (0x22#8 ++ 0#64)).busy = false ∧ (waiting (0x22#8 ++ 0#64)).fault = none := by decide
theorem witness_CommandReady : halted.cmdReady = false ∧ halted.pins.rst = false ∧ (waiting 0#72).cmdReady = true := by
  decide
theorem witness_BackPressure :
    (busyWith false).pins.rst = false ∧ (busyWith false).busy = true ∧ (busyWith false).pins.rspReady = false := by decide
theorem witness_BeatTransfer : (busyWith true).pins.rst = false ∧ (busyWith true).busy = true ∧
    (busyWith true).pins.rspReady = true ∧ (busyWith true).pending = [⟨8#4, 1#64⟩] := by decide
theorem witness_IdleKeeps : (seededWith 0#64).pins.rst = false ∧ (seededWith 0#64).pins.cmd = none ∧
    (seededWith 0#64).pending = [] := by decide
theorem witness_HardwareReset : ({ busyWith true with inputs := [{ rst := true }] } : State).pins.rst = true := by decide
theorem witness_HaltedStays : halted.fault.isSome = true ∧ ∀ p ∈ halted.inputs.take 3, p.rst = false := by decide
theorem witness_OnlyResetLeavesFault : let s : State := { halted with inputs := [{ rst := true }] }
    s.fault.isSome = true ∧ (nextOf (step s)).map State.fault = some none := by decide
theorem witness_Getseed_unseeded : State.reset.seeded = false := by decide
theorem witness_seeded : (seededWith 0#64).seeded = true ∧ (seededWith 0#64).state = some 0x0005DEECE66D#48 := by decide
theorem witness_ReseedEquivalence : (seededWith 7#64).fault = none ∧ State.reset.fault = none := by decide
theorem witness_NextExtracts : (0 : Nat) ≤ 48 ∧ (48 : Nat) ≤ 48 := by decide
theorem witness_NextBits : (48 : Nat) ≤ 48 ∧ (31 : Nat) < 32 := by decide
theorem witness_Step_fault : 48 < (49#64).toNat := by decide
theorem witness_Step_unseeded : (48#64).toNat ≤ 48 ∧ State.reset.seeded = false := by decide
theorem witness_Step_runs : (0#64).toNat ≤ 48 ∧ (48#64).toNat ≤ 48 ∧ (seededWith 0#64).seeded = true ∧
    (seededWith 0#64).state = some 0x0005DEECE66D#48 := by decide
theorem witness_F32Conversion : (0x800000#24).getLsbD 23 = true ∧ ∀ j, 23 < j → (0x800000#24).getLsbD j = false :=
  ⟨by decide, fun j h => BitVec.getLsbD_of_ge _ j h⟩
theorem witness_F64Conversion : (0x10000000000000#64).toNat < 2 ^ 53 ∧ (0x10000000000000#64).getLsbD 52 = true ∧
    ∀ j, 52 < j → (0x10000000000000#64).getLsbD j = false := by
  refine ⟨by decide, by decide, fun j h => ?_⟩
  by_cases hj : 64 ≤ j
  · exact BitVec.getLsbD_of_ge _ j hj
  · have hc : ∀ k : Fin 64, 52 < k.val → (0x10000000000000#64).getLsbD k.val = false := by decide
    exact hc ⟨j, by omega⟩ h
theorem witness_F64Conversion_exact : (0x1FFFFFFFFFFFFF#64).toNat < 2 ^ 53 := by decide
theorem witness_IsPow2 : (0x80000000#32) ≠ 0#32 := by decide
theorem witness_Bound_nonpos : (0#32).toInt ≤ 0 ∧ (0x80000000#32).toInt ≤ 0 ∧ (0xFFFFFFFF#32).toInt ≤ 0 := by decide
theorem witness_Bound_unseeded : 0 < (1#32).toInt ∧ State.reset.seeded = false := by decide
theorem witness_Bound_pow2 : 0 < (0x40000000#32).toInt ∧ (0x40000000#32).toNat = 2 ^ 30 ∧ (1#32).toNat = 2 ^ 0 := by decide
/-- The second draw from seed 0xA9C03990CCC4 is the first accepted one for max = 0x7FFFFFFF (section 3.6). -/
theorem witness_Bound_loop : 0 < (0x7FFFFFFF#32).toInt ∧ isPow2 0x7FFFFFFF#32 = false ∧
    (loopTest 0x7FFFFFFF#32 (loopDraw (scramble 0xA9C03990CCC4#64) 1)).toInt < 0 ∧
    0 ≤ (loopTest 0x7FFFFFFF#32 (loopDraw (scramble 0xA9C03990CCC4#64) 2)).toInt := by decide
theorem witness_BoundPow2ClosedForm : (0 : Nat) ≤ 30 ∧ (30 : Nat) ≤ 30 ∧ (seededWith 0#64).seeded = true := by decide
theorem witness_AcceptClosedForm : 0 < (3#32).toInt ∧ (0x7FFFFFFF#32).toNat < 2 ^ 31 := by decide
/-- The hypotheses, with a bound that is no power of two and with the smallest and largest that are. -/
theorem witness_BoundTerminates : 0 < (0x7FFFFFFF#32).toInt ∧ 0 < (1#32).toInt ∧ 0 < (0x40000000#32).toInt ∧
    (seededWith 0#64).seeded = true ∧ (seededWith 0#64).state = some 0x0005DEECE66D#48 := by decide
/-- From seed 0xA9C03990CCC4 the second draw is the first accepted one, so k = 2 in R178 (section 3.6). -/
theorem witness_FirstAccepted : FirstAccepted 0x7FFFFFFF#32 (scramble 0xA9C03990CCC4#64) 2 :=
  ⟨by decide, by decide, fun i h1 h2 => by obtain rfl : i = 1 := by omega
                                           decide⟩
theorem witness_FloatRange : (seededWith 0#64).seeded = true ∧ (seededWith 0#64).state = some 0x0005DEECE66D#48 := by
  decide
theorem witness_StepNeverStops : (waiting 0x100000000000000000#72).Inv := ⟨by decide, by decide, by decide, by decide⟩
theorem witness_Boundu32_fault : (0#32).toNat = 0 ∧ 2 ^ 31 ≤ (0x80000000#32).toNat := by decide
theorem witness_Boundu32_runs : 0 < (0x7FFFFFFF#32).toNat ∧ (0x7FFFFFFF#32).toNat < 2 ^ 31 := by decide
theorem witness_NotSeeded : State.reset.seeded = false ∧ (∀ v, Instr.fill 0 ≠ .seed v) ∧
    (∀ b, Instr.fill 0 = .step b → b ≤ 48) ∧
    ∀ m, Instr.fill 0 = .boundi32 m ∨ Instr.fill 0 = .boundu32 m → 0 < m.toInt :=
  ⟨rfl, nofun, nofun, nofun⟩
theorem witness_FaultPriority : let s := State.reset.present 0x030000000000000031#72
    s.pins.rst = false ∧ s.pins.cmd = some 0x030000000000000031#72 ∧ s.busy = false ∧ s.fault = none ∧
      (nextOf (step s)).isSome = true := by decide
theorem witness_FaultEntry : (seededWith 0#64).fault = none ∧
    (nextOf (exec (.boundu32 0#32) (seededWith 0#64))).map State.fault = some (some (.boundNonpos, 0x21#8)) := by decide
theorem witness_FaultEntry_passes : firstCause (.boundu32 1#32) (seededWith 0#64).seeded = none ∧
    (nextOf (exec (.boundu32 1#32) (seededWith 0#64))).isSome = true := by decide
theorem witness_AdvanceCounts : fixedAdvances (.boundi32 16#32) = some 1 ∧ fixedAdvances (.fill 9) = some 3 ∧
    (nextOf (exec (.fill 9) (seededWith 0#64))).map State.fault = some none := by decide
theorem witness_StateWriters : firstCause (.step 49) true = some .stepBits ∧
    (nextOf (exec (.step 49) (seededWith 0#64))).isSome = true ∧ firstCause (.fill 0) true = none ∧
    (nextOf (exec (.fill 0) (seededWith 0#64))).isSome = true ∧ (nextOf (exec .getseed State.reset)).isSome = true ∧
    (nextOf (exec (.seed 7#64) State.reset)).isSome = true ∧ firstCause .nextf64 (seededWith 0#64).seeded = none ∧
    (nextOf (exec .nextf64 (seededWith 0#64))).isSome = true := by decide
/-- A bound that is no power of two has no fixed number of advances, and completes (section 3.6). -/
theorem witness_StateWriters_loop : fixedAdvances (.boundi32 0x7FFFFFFF#32) = none ∧
    (nextOf (exec (.boundi32 0x7FFFFFFF#32) (seededWith 0xA9C03990CCC4#64))).isSome = true := by decide
theorem witness_CommandFrame : firstCause .getseed (seededWith 0#64).seeded = none ∧
    (nextOf (exec .getseed (seededWith 0#64))).isSome = true ∧ (nextOf (exec (.seed 7#64) State.reset)).isSome = true := by
  decide
theorem witness_ValueFrame : firstCause .nextbool (seededWith 0#64).seeded = none ∧
    (nextOf (exec .nextbool (seededWith 0#64))).isSome = true := by decide
theorem witness_StepKeepsInv : (busyWith true).Inv ∧ (nextOf (step (busyWith true))).isSome = true :=
  ⟨⟨by decide, by decide, by decide, by decide⟩, by decide⟩
theorem witness_StepKeepsFaultRecord : halted.FaultInv ∧ (nextOf (step halted)).isSome = true :=
  ⟨fun r hr => by rw [← Option.some.inj hr]; rfl, by decide⟩
theorem witness_InstancesIsolated : let c : Chip := [seededWith 0#64, waiting 0x100000000000000000#72]
    c.getD 1 State.reset = waiting 0x100000000000000000#72 ∧ 1 < c.length ∧
      (match c.stepInstance 1 with | .next _ => true | .fault _ => false | .refused _ => false) = true := by decide
theorem witness_AssemblerWords_low : (-2 ^ 63 : Int) ≤ -2 ^ 63 ∧ (-2 ^ 63 : Int) ≤ 2 ^ 64 - 1 ∧
    assembleCommand .seed (some (-2 ^ 63 - 1)) = none := by decide
theorem witness_ConstructSeeds : (assembleCommand .construct (some (-1))).isSome = true := by decide

end Sys2Proof.Tests
end

section
/-! PROOFS of the statements on state, STATUS and the step (10_state.md): first the facts about the model's functions
that they rest on, then one theorem for each statement. -/

namespace Sys2Proof.Machine

/-! ### The fields of the STATUS word (R26, R30) -/

/-- STATUS written bit by bit from the low end, below FOP and CAUSE. -/
theorem State.status_eq_concat (s : State) :
    s.status = ((((s.fop ++ s.cause).concat false).concat s.busy).concat s.fault.isSome).concat s.seeded := rfl

theorem State.status_getLsbD_zero (s : State) : s.status.getLsbD 0 = s.seeded := by
  rw [State.status_eq_concat, BitVec.getLsbD_concat_zero]

theorem State.status_getLsbD_one (s : State) : s.status.getLsbD 1 = s.fault.isSome := by
  rw [State.status_eq_concat, BitVec.getLsbD_concat_succ, BitVec.getLsbD_concat_zero]

theorem State.status_getLsbD_two (s : State) : s.status.getLsbD 2 = s.busy := by
  rw [State.status_eq_concat, BitVec.getLsbD_concat_succ, BitVec.getLsbD_concat_succ, BitVec.getLsbD_concat_zero]

theorem State.status_getLsbD_three (s : State) : s.status.getLsbD 3 = false := by
  rw [State.status_eq_concat, BitVec.getLsbD_concat_succ, BitVec.getLsbD_concat_succ, BitVec.getLsbD_concat_succ,
    BitVec.getLsbD_concat_zero]

/-- Bits 15:4 are FOP over CAUSE, whatever the four bits below. -/
theorem State.status_extract_record (s : State) : s.status.extractLsb' 4 12 = s.fop ++ s.cause := by
  unfold State.status
  simp only [BitVec.extractLsb'_append_eq_of_le, Nat.reduceLeDiff, Nat.reduceSub]
  exact BitVec.extractLsb'_eq_self

theorem State.status_extract_cause (s : State) : s.status.extractLsb' 4 4 = s.cause := by
  unfold State.status
  simp only [BitVec.extractLsb'_append_eq_of_le, Nat.reduceLeDiff, Nat.reduceSub]
  exact BitVec.extractLsb'_append_eq_right

theorem State.status_extract_fop (s : State) : s.status.extractLsb' 8 8 = s.fop := by
  unfold State.status
  simp only [BitVec.extractLsb'_append_eq_of_le, Nat.reduceLeDiff, Nat.reduceSub]
  exact BitVec.extractLsb'_eq_self

/-- The host reads back the cause a code was made from (R150). -/
@[simp] theorem Cause.ofCode_code (c : Cause) : Cause.ofCode c.code = some c := by
  cases c <;> rfl

/-! ### The answers of a step, by event -/

/-- A transfer that the block's pins allow. -/
theorem State.event_transfer {s : State} {b : Beat} {rest : List Beat} (hr : s.pins.rst = false)
    (hc : s.cmdReady = false) (hy : s.pins.rspReady = true) (hp : s.pending = b :: rest) : s.event = .transfer := by
  rw [State.event_not_ready hr hc, State.rspValid, hr, hy, hp]
  rfl

/-- A busy block accepts no command (R176). -/
theorem State.cmdReady_of_busy {s : State} (hb : s.busy = true) : s.cmdReady = false := by
  simp [State.cmdReady, hb]

/-- A transfer moves the oldest beat and settles BUSY. -/
theorem step_of_transfer {s : State} (h : s.event = .transfer) : step s = .next s.tick.transferBeat.settle := by
  rw [step, h]

/-- An accepted word that decodes runs as its command. -/
theorem step_of_command {s : State} {w : CommandWord} {i : Instr} (h : s.event = .command w) (hd : decode w = .ok i) :
    step s = settleAnswer (exec i s.tick.accept) := by
  rw [step, h]
  simp only [hd]

/-- An accepted word that does not decode enters ILLEGAL_OP. -/
theorem step_of_illegal {s : State} {w : CommandWord} {op : Op} (h : s.event = .command w)
    (hd : decode w = .error (.illegalOp op)) : step s = .next (s.tick.accept.raise .illegalOp op).settle := by
  rw [step, h]
  simp only [hd]

/-! ### The invariant -/

/-- A state within a command, whose BUSY still has to settle, has the invariant once it has settled. -/
theorem State.Inv.of_settle {u : State} (hs : u.seeded = u.state.isSome) (hb : u.busy = false → u.pending = [])
    (hf : u.fault.isSome = true → u.pending = []) (hw : ∀ b ∈ u.beats, b.wf = true) : u.settle.Inv where
  seeded_iff := hs
  busy_iff := by
    rw [State.settle_busy, State.settle_pending]
    cases hu : u.busy with
    | false => rw [hb hu]; rfl
    | true => rfl
  fault_idle := hf
  beats_wf := hw

/-- Using a sample touches nothing the invariant speaks of. -/
theorem State.Inv.tick {s : State} (h : s.Inv) : s.tick.Inv :=
  ⟨h.seeded_iff, h.busy_iff, h.fault_idle, h.beats_wf⟩

/-- A block that is not busy has no beat waiting. -/
theorem State.Inv.pending_of_idle {s : State} (h : s.Inv) (hb : s.busy = false) : s.pending = [] := by
  simpa [hb] using h.busy_iff

theorem State.Inv.hardReset {s : State} (h : s.Inv) : s.hardReset.Inv where
  seeded_iff := rfl
  busy_iff := rfl
  fault_idle := nofun
  beats_wf b hb := h.beats_wf b (List.mem_append_left _ (by simpa using hb))

/-- A transfer moves a beat that waits, so the block was busy and has not faulted. -/
theorem State.Inv.transferBeat_settle {s : State} {b : Beat} {rest : List Beat} (h : s.Inv)
    (hp : s.pending = b :: rest) : s.transferBeat.settle.Inv := by
  have hb : s.busy = true := by rw [h.busy_iff, hp]; rfl
  have hf : s.fault.isSome = false := by
    rw [Bool.eq_false_iff]
    intro hf
    simpa [hp] using h.fault_idle hf
  refine .of_settle ?_ ?_ ?_ ?_
  · simpa using h.seeded_iff
  · simp [hb]
  · simp [hf]
  · simpa using h.beats_wf

/-- Fault entry on a block with no beat waiting. -/
theorem State.Inv.raise_settle {s : State} (h : s.Inv) (hp : s.pending = []) (c : Cause) (op : Op) :
    (s.accept.raise c op).settle.Inv :=
  .of_settle h.seeded_iff (fun _ => hp) (fun _ => hp) h.beats_wf

/-- A command accepted by an idle, unfaulted block leaves the invariant once BUSY has settled. -/
theorem State.Inv.exec_settle {s u : State} {i : Instr} (h : s.Inv) (hb : s.busy = false) (hf : s.fault = none)
    (hu : exec i s.accept = .next u) : u.settle.Inv := by
  have hp := h.pending_of_idle hb
  rcases exec_next hu with ⟨c, -, rfl⟩ | ⟨v, -, rfl⟩ | ⟨x, k, bs, hr⟩
  · exact h.raise_settle hp c i.op
  · exact .of_settle rfl (fun _ => hp) (fun _ => hp) h.beats_wf
  · have hs : s.seeded = true := hr.seeded
    obtain rfl := hr.next
    refine .of_settle (by simpa using hs) nofun (by simp [hf]) fun b hm => ?_
    rw [State.emitAll_beats, List.mem_append] at hm
    exact hm.elim (h.beats_wf b) (hr.wf b)

/-! ### Half a period of the advance chain (R91) -/

/-- `2 ^ k` advances are an affine map whose factor is 1 modulo `2 ^ (k + 2)` and whose addend is an odd multiple of
`2 ^ k`: composing the map with itself adds one to both exponents. -/
theorem advances_two_pow (k : Nat) :
    ∃ q r : Lcg, ∀ x, advances (2 ^ k) x = x * (1 + 2 ^ (k + 2) * q) + 2 ^ k * (1 + 2 * r) := by
  induction k with
  | zero =>
    have hmul : (1 + 2 ^ (0 + 2) * 0x177BB399B#48 : Lcg) = 0x5DEECE66D#48 := by decide
    have hadd : (2 ^ 0 * (1 + 2 * 5#48) : Lcg) = 0xB#48 := by decide
    refine ⟨0x177BB399B#48, 5#48, fun x => ?_⟩
    rw [hmul, hadd, pow_zero, advances_one, advance_eq]
  | succ k ih =>
    obtain ⟨q, r, h⟩ := ih
    refine ⟨q + 2 ^ (k + 1) * q ^ 2, r + 2 ^ k * q * (1 + 2 * r), fun x => ?_⟩
    rw [pow_succ 2 k, mul_two, advances_add, h, h]
    ring

/-- 2 is nilpotent in 48 bits. -/
theorem two_pow_lcg_eq_zero : (2 : Lcg) ^ 48 = 0 := by decide

/-- Half a period flips STATE[47] and nothing else. -/
theorem advances_halfPeriod (x : Lcg) : advances (2 ^ 47) x = x + 2 ^ 47 := by
  obtain ⟨q, r, h⟩ := advances_two_pow 47
  rw [h, pow_succ (2 : Lcg) 48, two_pow_lcg_eq_zero]
  linear_combination r * two_pow_lcg_eq_zero

/-! ### The rejection loop ends (R133, R134) -/

/-- A signed 32-bit value is not negative exactly when its top bit is 0. -/
theorem word32_toInt_nonneg_iff (t : Word32) : 0 ≤ t.toInt ↔ t.toNat < 2 ^ 31 := by
  rw [BitVec.toInt_eq_toNat_cond]
  split <;> omega

/-- A positive bound as a number (R152). -/
theorem word32_toInt_pos_iff (m : Word32) : 0 < m.toInt ↔ 0 < m.toNat ∧ m.toNat < 2 ^ 31 := by
  rw [BitVec.toInt_eq_toNat_cond]
  split <;> omega

/-- `t` of R131 as a number: for a positive bound and a 31-bit draw nothing wraps. -/
theorem loopTest_toNat {m bits : Word32} (hm : 0 < m.toInt) (hb : bits.toNat < 2 ^ 31) :
    (loopTest m bits).toNat = bits.toNat - bits.toNat % m.toNat + (m.toNat - 1) := by
  have hpos := (word32_toInt_pos_iff m).mp hm
  have hle : bits.toNat % m.toNat ≤ bits.toNat := Nat.mod_le _ _
  unfold loopTest
  rw [BitVec.toNat_add, BitVec.toNat_sub_of_le (by rwa [BitVec.le_def, BitVec.toNat_umod]),
    BitVec.toNat_sub_of_le (by rw [BitVec.le_def]; exact hpos.1), BitVec.toNat_umod]
  exact Nat.mod_eq_of_lt (by change _ + (m.toNat - 1) < _; omega)

/-- A draw below `2 ^ 30` is accepted by every positive bound: either the bound is at most `2 ^ 30` too, or the draw is
its own residue. -/
theorem accepted_of_lt {m bits : Word32} (hm : 0 < m.toInt) (hb : bits.toNat < 2 ^ 30) : accepted m bits = true := by
  have hpos := (word32_toInt_pos_iff m).mp hm
  rw [accepted_iff, word32_toInt_nonneg_iff, loopTest_toNat hm (by omega)]
  rcases Nat.lt_or_ge bits.toNat m.toNat with h | h
  · rw [Nat.mod_eq_of_lt h]; omega
  · omega

/-- STATE below `2 ^ 47` gives a 31-bit draw below `2 ^ 30` (R92). -/
theorem extract_lt_of_state_lt {x : Lcg} (h : x.toNat < 2 ^ 47) : (extract 31 x).toNat < 2 ^ 30 := by
  rw [extract_toNat]; omega

/-- Some draw within half a period and one is accepted: the first, or the one that sees its STATE[47] flipped. -/
theorem exists_accepted {m : Word32} (hm : 0 < m.toInt) (x : Lcg) :
    ∃ j, 1 ≤ j ∧ j ≤ 2 ^ 47 + 1 ∧ accepted m (extract 31 (advances j x)) = true := by
  by_cases hx : (advances 1 x).toNat < 2 ^ 47
  · exact ⟨1, le_refl _, by omega, accepted_of_lt hm (extract_lt_of_state_lt hx)⟩
  · refine ⟨1 + 2 ^ 47, by omega, by omega, accepted_of_lt hm (extract_lt_of_state_lt ?_)⟩
    rw [advances_add, advances_halfPeriod, BitVec.toNat_add, show ((2 : Lcg) ^ 47).toNat = 2 ^ 47 by decide]
    have := (advances 1 x).isLt
    omega

/-- There is a first accepted draw, among the first `2 ^ 47 + 1` (R134). -/
theorem exists_firstAccepted {m : Word32} (hm : 0 < m.toInt) (x : Lcg) :
    ∃ j, j ≤ 2 ^ 47 + 1 ∧ FirstAccepted m x j := by
  classical
  obtain ⟨n, h1, hn, ha⟩ := exists_accepted hm x
  have hex : ∃ j, 1 ≤ j ∧ accepted m (extract 31 (advances j x)) = true := ⟨n, h1, ha⟩
  refine ⟨Nat.find hex, (Nat.find_min' hex ⟨h1, ha⟩).trans hn, firstAccepted_iff.mpr ?_⟩
  obtain ⟨hpos, hacc⟩ := Nat.find_spec hex
  refine ⟨hpos, hacc, fun i hi hlt => ?_⟩
  rw [← Bool.not_eq_true]
  exact fun h => Nat.find_min hex hlt ⟨hi, h⟩

/-- The sampler of a positive bound answers (R134). -/
theorem sample_answers {m : Word32} (hm : 0 < m.toInt) (x : Lcg) : ∃ res y, sample m x = some (res, y) := by
  unfold sample
  split
  · exact ⟨_, _, rfl⟩
  · obtain ⟨j, hj, hf⟩ := exists_firstAccepted hm x
    obtain ⟨h1, ha, hr⟩ := firstAccepted_iff.mp hf
    have hfuel : j ≤ Config.samplerFuel := by
      unfold Config.samplerFuel; omega
    exact ⟨_, _, rejectionLoop_eq h1 hfuel ha hr⟩

/-! ### No command stops the machine -/

/-- With SEEDED and STATE in step, a command passes the SEEDED check to a body that answers, or faults. -/
theorem State.ifSeeded_answers {s : State} {op : Op} {body : Lcg → Answer} (hs : s.seeded = s.state.isSome)
    (hb : ∀ x, ∃ t, body x = .next t) : ∃ t, s.ifSeeded op body = .next t := by
  cases hx : s.state with
  | none => exact ⟨_, State.ifSeeded_unseeded (by rw [hs, hx]; rfl)⟩
  | some x =>
    obtain ⟨t, ht⟩ := hb x
    exact ⟨t, by rw [State.ifSeeded_seeded (by rw [hs, hx]; rfl) hx, ht]⟩

theorem State.bounded_answers {s : State} {op : Op} {m : Word32} (hs : s.seeded = s.state.isSome) :
    ∃ t, s.bounded op m = .next t := by
  unfold State.bounded
  split
  · exact ⟨_, rfl⟩
  · next hm =>
    rw [boundBad_iff, not_le] at hm
    refine State.ifSeeded_answers hs fun x => ?_
    obtain ⟨res, y, hxy⟩ := sample_answers hm x
    exact ⟨_, by rw [hxy]⟩

/-- Every command answers a next state while SEEDED and STATE are in step (R27, R134). -/
theorem exec_answers (i : Instr) {s : State} (hs : s.seeded = s.state.isSome) : ∃ t, exec i s = .next t := by
  cases i with
  | seed v => exact ⟨_, exec_seed v s⟩
  | step b =>
    rw [exec_step]
    split
    · exact ⟨_, rfl⟩
    · exact State.ifSeeded_answers hs fun _ => ⟨_, rfl⟩
  | boundi32 m => exact State.bounded_answers hs
  | boundu32 m => exact State.bounded_answers hs
  | getseed | nexti32 | nextu32 | nexti64 | nextu64 | nextbool | nextf32 | nextf64 | fill n =>
    exact State.ifSeeded_answers hs fun _ => ⟨_, rfl⟩

/-! ### What a command leaves in each field -/

/-- The inversion for a command other than SEED: fault entry or a run. -/
theorem exec_next_of_ne_seed {i : Instr} {s t : State} (hi : ∀ v, i ≠ .seed v) (h : exec i s = .next t) :
    (∃ c, firstCause i s.seeded = some c ∧ t = s.raise c i.op) ∨ ∃ x k bs, Runs i s x k bs t := by
  rcases exec_next h with hc | ⟨v, hv, -⟩ | hr
  · exact .inl hc
  · exact absurd hv (hi v)
  · exact .inr hr

/-- GETSEED and FILL 0 make no advance (R178). -/
theorem fixedAdvances_getseed_or_fill_zero {i : Instr} (h : i = .getseed ∨ i = .fill 0) : fixedAdvances i = some 0 := by
  rcases h with rfl | rfl <;> rfl

/-- A run of a command with no advance leaves STATE alone. -/
theorem Runs.state_of_fixedAdvances_zero {i : Instr} {s t : State} {x : Lcg} {k : Nat} {bs : List Beat}
    (h : Runs i s x k bs t) (h0 : fixedAdvances i = some 0) : t.state = s.state := by
  obtain rfl : k = 0 := (advancesBy_fixed h0 x k).mp h.count
  rw [h.next, h.state]
  rfl

/-! ### The statements -/

/-- Settles O53: each of the things a step can do keeps the invariant. -/
theorem stepKeepsInv : Obligations.StepKeepsInv := by
  intro s t h hst
  rcases step_next hst with ⟨-, rfl⟩ | ⟨-, rfl⟩ | ⟨he, rfl⟩ | ⟨w, he, hw⟩
  · exact h.tick
  · exact h.tick.hardReset
  · obtain ⟨-, -, b, rest, hp⟩ := State.event_eq_transfer he
    exact h.tick.transferBeat_settle hp
  · obtain ⟨-, -, hb, hf⟩ := State.event_eq_command he
    rcases hw with ⟨i, u, -, hu, rfl⟩ | ⟨-, rfl⟩
    · exact h.tick.exec_settle hb hf hu
    · exact h.tick.raise_settle (h.pending_of_idle hb) _ _

/-- Settles O10: a waiting beat keeps the block busy, so the pins give a transfer. -/
theorem beatTransfer : Obligations.BeatTransfer := by
  intro s b rest hr hb hy hp
  have he := State.event_transfer hr (State.cmdReady_of_busy hb) hy hp
  constructor
  · simp [State.rspBeat, State.rspValid, hr, hp]
  · rw [step_of_transfer he, State.transferBeat_cons (s := s.tick) hp]
    simp only [State.settle, State.tick, hb, Bool.true_and]

/-- Settles O16: one lemma per field of the word. -/
theorem statusLayout : Obligations.StatusLayout := by
  intro s
  refine ⟨s.status_getLsbD_zero, s.status_getLsbD_one, s.status_getLsbD_two, s.status_getLsbD_three, ?_, ?_⟩
  · refine s.status_extract_cause.trans ?_
    unfold State.cause
    rcases s.fault with _ | ⟨_ | _ | _ | _, op⟩ <;> rfl
  · exact s.status_extract_fop

/-- Settles O17: the decoder looks at FAULT first; without a fault CAUSE and FOP read 0, with one its code names the
cause. -/
theorem statusDecodes : Obligations.StatusDecodes := by
  intro s
  unfold decodeStatus
  rw [s.status_getLsbD_zero, s.status_getLsbD_one, s.status_getLsbD_two, s.status_extract_cause, s.status_extract_fop,
    s.status_extract_record]
  unfold State.cause State.fop
  rcases s.fault with _ | ⟨c, op⟩
  · rfl
  · simp

/-- Settles O50: SEED writes STATE and sets SEEDED; any other command enters a fault, which changes neither, or runs. -/
theorem stateWriters : Obligations.StateWriters := by
  intro i s t h
  by_cases hi : ∃ v, i = .seed v
  · obtain ⟨v, rfl⟩ := hi
    obtain rfl : (s.writeState (scramble v)).setSeeded = t := by simpa [exec_seed] using h
    refine ⟨nofun, nofun, fun w hw => ?_, fun _ hne => absurd rfl (hne v), by simp⟩
    obtain rfl := Instr.seed.inj hw
    exact congrArg some (scramble_eq v)
  · have hseeded : decide (∃ v, i = .seed v) = false := decide_eq_false hi
    have hseed : ∀ v, i ≠ .seed v := not_exists.mp hi
    rw [hseeded, Bool.or_false]
    rcases exec_next_of_ne_seed hseed h with ⟨c, hc, rfl⟩ | ⟨x, k, bs, hr⟩
    · exact ⟨fun _ _ => rfl, fun _ => rfl, fun v hv => absurd hv (hseed v), fun hn => by simp [hn] at hc, rfl⟩
    · refine ⟨fun c hc => ?_, fun h0 => ?_, fun v hv => absurd hv (hseed v), fun _ _ => ?_, ?_⟩
      · simp [hr.passes] at hc
      · exact hr.state_of_fixedAdvances_zero (fixedAdvances_getseed_or_fill_zero h0)
      · exact ⟨x, k, hr.state, hr.count, by rw [hr.next]; rfl⟩
      · rw [hr.next]; rfl

/-- Settles O51: fault entry, SEED and a run each write their own fields only. -/
theorem commandFrame : Obligations.CommandFrame := by
  intro i s t h
  by_cases hi : ∃ v, i = .seed v
  · obtain ⟨v, rfl⟩ := hi
    obtain rfl : (s.writeState (scramble v)).setSeeded = t := by simpa [exec_seed] using h
    exact ⟨rfl, rfl, ⟨[], by simp⟩, fun _ => ⟨rfl, rfl⟩, fun _ => rfl, nofun⟩
  · rcases exec_next_of_ne_seed (not_exists.mp hi) h with ⟨c, hc, rfl⟩ | ⟨x, k, bs, hr⟩
    · exact ⟨rfl, rfl, ⟨[], by simp⟩, fun hn => by simp [hn] at hc, fun hv => absurd hv hi, fun _ => ⟨rfl, rfl⟩⟩
    · have hget : i = .getseed → t.state = s.state := fun hg =>
        hr.state_of_fixedAdvances_zero (fixedAdvances_getseed_or_fill_zero (.inl hg))
      obtain rfl := hr.next
      exact ⟨rfl, rfl, ⟨bs, rfl⟩, fun _ => ⟨rfl, rfl⟩, fun hv => absurd hv hi, fun hg => ⟨hget hg, rfl⟩⟩

/-- Settles O56: only an accepted command could stop the machine, and under the invariant none does. -/
theorem stepNeverStops : Obligations.StepNeverStops := by
  intro s h
  cases he : s.event with
  | idle => exact ⟨_, by rw [step, he]⟩
  | reset => exact ⟨_, by rw [step, he]⟩
  | transfer => exact ⟨_, step_of_transfer he⟩
  | command w =>
    cases hd : decode w with
    | ok i =>
      obtain ⟨u, hu⟩ := exec_answers i (s := s.tick.accept) h.seeded_iff
      exact ⟨u.settle, by rw [step_of_command he hd, hu, settleAnswer_of_next]⟩
    | error e =>
      obtain ⟨op⟩ := e
      exact ⟨_, step_of_illegal he hd⟩

/-- Settles O6: the word transfers and decodes, so the step is its command, settled. -/
theorem stepRunsDecoded : Obligations.StepRunsDecoded := fun _ _ _ hr hw hb hf hd =>
  step_of_command (State.event_command hr hw hb hf) hd

/-- Settles O13: no field of the reset state is other than R33's, and STATUS is that of an idle unfaulted block. -/
theorem resetValues : Obligations.ResetValues :=
  ⟨rfl, rfl, rfl, rfl, rfl, State.status_idle _ rfl rfl⟩

/-- Settles O54: STATE is unwritten and SEEDED is 0, BUSY is 0 and no beat waits. -/
theorem resetInv : Obligations.ResetInv where
  seeded_iff := rfl
  busy_iff := rfl
  fault_idle _ := rfl
  beats_wf := nofun

end Sys2Proof.Machine
end

section
/-! PROOFS of the statements on the encoding (30_encoding.md): the decoder on the OP of a command, what of ARG it reads,
and the assembler's words; then one theorem for each statement. -/

namespace Sys2Proof

/-! ### The operand forms (R63) -/

/-- The command with its operand read from this ARG, by the form of its OP (R63). -/
def Instr.withArg (arg : Word64) : Instr → Instr
  | .seed _ => .seed (argS64 arg)
  | .step _ => .step (argU64 arg)
  | .boundi32 _ => .boundi32 (argM32 arg)
  | .boundu32 _ => .boundu32 (argM32 arg)
  | .fill _ => .fill (argU64 arg)
  | i => i

/-- Form M32 reads back the operand an encoder writes. -/
theorem argM32_setWidth (m : Word32) : argM32 (m.setWidth 64) = m := by
  rw [argM32, ← BitVec.setWidth_eq_extractLsb' (by decide), BitVec.setWidth_setWidth_of_le _ (by decide),
    BitVec.setWidth_eq]

/-- Form U64 reads back the operand an encoder writes, when it fits. -/
theorem argU64_ofNat {n : Nat} (h : n < 2 ^ 64) : argU64 (BitVec.ofNat 64 n) = n :=
  Nat.mod_eq_of_lt h

/-- An operand of form U64, written to ARG again. -/
theorem ofNat_argU64 (arg : Word64) : BitVec.ofNat 64 (argU64 arg) = arg := by
  rw [argU64, BitVec.ofNat_toNat, BitVec.setWidth_eq]

/-- The ARG of an M32 operand: the operand in the low half, 0 in the high half (R69). -/
theorem setWidth_eq_zero_append (m : Word32) : m.setWidth 64 = (0#32 ++ m : Word64) :=
  BitVec.setWidth_eq_append (by decide)

/-- The bits form M32 uses are the low 32. -/
theorem argM32_setWidth_eq_and (arg : Word64) : (argM32 arg).setWidth 64 = arg &&& 0x00000000FFFFFFFF#64 := by
  rw [setWidth_eq_zero_append, argM32, ← BitVec.setWidth_eq_extractLsb' (by decide)]
  exact (BitVec.and_setWidth_allOnes 32 32 arg).symm

/-- An encoder writes a well-formed command's operand so that its form reads it back (R69). -/
theorem Instr.withArg_arg {i : Instr} (h : i.wf = true) : i.withArg i.arg = i := by
  cases i with
  | step n | fill n => exact congrArg _ (argU64_ofNat (of_decide_eq_true h))
  | boundi32 m | boundu32 m => exact congrArg _ (argM32_setWidth m)
  | _ => rfl

/-- Every operand read from an ARG fits one. -/
theorem Instr.withArg_wf (i : Instr) (arg : Word64) : (i.withArg arg).wf = true := by
  cases i with
  | step n | fill n => exact decide_eq_true arg.isLt
  | _ => rfl

@[simp] theorem Instr.withArg_op (i : Instr) (arg : Word64) : (i.withArg arg).op = i.op := by
  cases i <;> rfl

@[simp] theorem Instr.withArg_withArg (i : Instr) (a b : Word64) : (i.withArg a).withArg b = i.withArg b := by
  cases i <;> rfl

/-- Encoding what was read from an ARG keeps the bits the form uses and clears the others (R64, R69). -/
theorem Instr.arg_withArg (i : Instr) (arg : Word64) : (i.withArg arg).arg = arg &&& usedArgBits i.op := by
  cases i with
  | seed v => exact (BitVec.and_allOnes (x := arg)).symm
  | step n | fill n => exact (ofNat_argU64 arg).trans (BitVec.and_allOnes (x := arg)).symm
  | boundi32 m | boundu32 m => exact argM32_setWidth_eq_and arg
  | _ => exact BitVec.and_zero.symm

/-- A form reads only the bits it uses (R64). -/
theorem Instr.withArg_and_used (i : Instr) (arg : Word64) : i.withArg (arg &&& usedArgBits i.op) = i.withArg arg := by
  rw [← i.arg_withArg, ← i.withArg_withArg arg, Instr.withArg_arg (i.withArg_wf arg)]

/-! ### The decoder -/

/-- The OP of a command selects that command, with its operand read from ARG (R62, R63). -/
theorem decode_op (i : Instr) (arg : Word64) : decode (commandWord i.op arg) = .ok (i.withArg arg) := by
  cases i <;> exact decode_commandWord _ arg

/-- What a word decodes to is the command of its OP with the operand read from its ARG. -/
theorem eq_withArg_of_decode {w : CommandWord} {i : Instr} (h : decode w = .ok i) : i = i.withArg (argField w) := by
  have hd := decode_op i (argField w)
  rw [(decode_ok_op h).1, commandWord_fields, h] at hd
  exact Except.ok.inj hd

/-- An unassigned OP selects no command, whatever ARG (R65). -/
theorem decode_unassigned {op : Op} (h : op ∉ assignedOps) (arg : Word64) :
    decode (commandWord op arg) = .error (.illegalOp op) := by
  rcases decode_commandWord_cases op arg with ⟨-, -, -, hm⟩ | ⟨he, -⟩
  · exact absurd hm h
  · exact he

/-- The decoder reads only the ARG bits that the form of OP uses (R64). -/
theorem decode_congr_used {op : Op} {a b : Word64} (h : a &&& usedArgBits op = b &&& usedArgBits op) :
    decode (commandWord op a) = decode (commandWord op b) := by
  rcases decode_commandWord_cases op a with ⟨i, -, rfl, -⟩ | ⟨he, hn⟩
  · rw [decode_op, decode_op, ← i.withArg_and_used a, h, i.withArg_and_used]
  · rw [he, decode_unassigned hn]

/-- The used bits by OP value, as R62 numbers them. -/
theorem usedArgBits_eq (op : Op) : usedArgBits op =
    if op ∈ [0x01#8, 0x03#8, 0x30#8] then 0xFFFFFFFFFFFFFFFF#64
    else if op ∈ [0x20#8, 0x21#8] then 0x00000000FFFFFFFF#64 else 0#64 := by
  simp only [List.mem_cons, List.not_mem_nil, or_false]
  rfl

end Sys2Proof

namespace Sys2Proof.Machine

/-! ### A word at the head of the host's list -/

/-- Two words that decode alike do the same in any state: either the block accepts both, or neither. -/
theorem step_present_congr {v w : CommandWord} (h : decode v = decode w) (s : State) :
    step (s.present v) = step (s.present w) := by
  by_cases hr : s.busy = false ∧ s.fault = none
  · simp only [step, State.event_present, if_pos hr, State.present_tick, h]
  · simp only [step, State.event_present, if_neg hr, State.present_tick]

/-- A sample that asserts `rst` resets the block, whatever its state (R170). -/
theorem step_reset_sample (s : State) (ps : List Pins) :
    step { s with inputs := Pins.reset :: ps } = .next { s.hardReset with inputs := ps } := by
  rw [step, State.event_reset rfl]
  rfl

/-- A presented word that decodes runs as its command when the block accepts commands (R176). -/
theorem step_present_of_decode {s : State} {w : CommandWord} {i : Instr} (hb : s.busy = false) (hf : s.fault = none)
    (hd : decode w = .ok i) : step (s.present w) = settleAnswer (exec i s.accept) :=
  step_of_command (State.event_command rfl rfl hb hf) hd

/-! ### The assembler (R69, R70) -/

/-- Inside its range an operand is presented as its pattern of `width` bits, zero above; outside the line is refused. -/
theorem withOperand_some (op : Op) (lo hi : Int) (width : Nat) (v : Int) :
    withOperand op lo hi width (some v) =
      if lo ≤ v ∧ v ≤ hi then some (commandWord op ((BitVec.ofInt width v).setWidth 64)) else none := by
  rw [withOperand, encodeOperand, apply_ite (Option.map (commandWord op)), Option.map_some, Option.map_none]

/-- The line's one sample, when the operand's pattern is the ARG `arg`. -/
theorem present_withOperand {op : Op} {lo hi : Int} {width : Nat} {v : Int} {arg : Word64}
    (h : lo ≤ v → (BitVec.ofInt width v).setWidth 64 = arg) :
    (withOperand op lo hi width (some v)).map (fun w => [Pins.present w]) =
      if lo ≤ v ∧ v ≤ hi then some [{ cmd := some (op ++ arg) }] else none := by
  rw [withOperand_some]
  split
  · next hv => rw [h hv.1]; rfl
  · rfl

/-- The pattern of a natural number. -/
theorem ofInt_of_nonneg (width : Nat) {v : Int} (h : 0 ≤ v) : BitVec.ofInt width v = BitVec.ofNat width v.toNat := by
  rw [← BitVec.ofInt_natCast, Int.toNat_of_nonneg h]

/-! ### The statements -/

/-- Settles O1: the command's OP selects it, and its form reads back the operand. -/
theorem decodeEncode : Obligations.DecodeEncode := by
  intro i h
  rw [encode, decode_op, Instr.withArg_arg h]

/-- Settles O2: a word decodes to the command of its OP with the operand read from ARG, and encoding that keeps the used
bits. -/
theorem encodeDecode : Obligations.EncodeDecode := by
  intro w i h
  have hi := eq_withArg_of_decode h
  have hop := (decode_ok_op h).1
  refine ⟨?_, (opField_encode i).trans hop, (argField_encode i).trans ?_⟩
  · rw [hi]
    exact i.withArg_wf _
  · rw [hi, i.arg_withArg, hop, usedArgBits_eq]
    rfl

/-- Settles O3: the decoder's answer by OP, with R62's numbers for the names. -/
theorem opcodeMap : Obligations.OpcodeMap := decode_commandWord

/-- Settles O5: words that agree on the used bits decode alike. -/
theorem ignoredBits : Obligations.IgnoredBits := by
  intro s op a b h
  refine step_present_congr (decode_congr_used ?_) s
  rcases h with hop | ⟨hop, hab⟩
  · have hu : ∀ op ∈ [0x02#8, 0x10#8, 0x11#8, 0x12#8, 0x13#8, 0x14#8, 0x15#8, 0x16#8], usedArgBits op = 0#64 := by
      decide
    rw [hu op hop, BitVec.and_zero, BitVec.and_zero]
  · have hu : ∀ op ∈ [0x20#8, 0x21#8], usedArgBits op = 0x00000000FFFFFFFF#64 := by decide
    rw [hu op hop, ← argM32_setWidth_eq_and, ← argM32_setWidth_eq_and, argM32, argM32, hab]

/-- Settles O7: an unassigned OP decodes to its refusal, and fault entry clears BUSY before it settles. -/
theorem illegalOpFaults : Obligations.IllegalOpFaults := by
  intro s op arg hop hr hc hb hf
  exact step_of_illegal (State.event_command hr hc hb hf) (decode_unassigned hop arg)

/-- Settles O52: a command that passes its checks and is not SEED runs, which writes STATE and the waiting beats. -/
theorem valueFrame : Obligations.ValueFrame := by
  intro i s t h hc hi
  rcases exec_next_of_ne_seed hi h with ⟨c, hc', -⟩ | ⟨x, k, bs, hr⟩
  · simp [hc] at hc'
  · obtain rfl := hr.next
    refine ⟨rfl, fun hn => ?_⟩
    obtain ⟨d, rfl⟩ := hr.value hn
    exact ⟨d, rfl⟩

/-- Settles O58: each operand's pattern is the ARG of its form, and a command without operand takes none. -/
theorem assemblerWords : Obligations.AssemblerWords := by
  have hu64 (v : Int) (h : 0 ≤ v) : (BitVec.ofInt 64 v).setWidth 64 = BitVec.ofNat 64 v.toNat := by
    rw [BitVec.setWidth_eq, ofInt_of_nonneg 64 h]
  refine ⟨fun v => present_withOperand fun _ => BitVec.setWidth_eq _, fun v => present_withOperand (hu64 v),
    fun v => present_withOperand (hu64 v), fun v => present_withOperand fun _ => setWidth_eq_zero_append _,
    fun v => present_withOperand fun h => ?_, fun row hrow => ?_⟩
  · rw [setWidth_eq_zero_append, ofInt_of_nonneg 32 h]
  · simp only [List.mem_cons, List.not_mem_nil, or_false] at hrow
    rcases hrow with rfl | rfl | rfl | rfl | rfl | rfl | rfl | rfl <;> exact ⟨rfl, fun _ => rfl⟩

/-- Settles O59: the first sample resets the block, faulted or not, and the second is an accepted SEED. -/
theorem constructSeeds : Obligations.ConstructSeeds := by
  intro s v ps h
  have hps : ps = [Pins.reset, Pins.present (commandWord opSeed (BitVec.ofInt 64 v))] := by
    rw [assembleCommand, withOperand_some, BitVec.setWidth_eq] at h
    split at h
    · exact (Option.some.inj h).symm
    · cases h
  have hseed := step_present_of_decode (s := { s.hardReset with inputs := [] }) rfl rfl
    (decode_op (.seed 0) (BitVec.ofInt 64 v))
  rw [hps]
  refine ⟨_, (run_succ (step_reset_sample s _)).trans (run_succ hseed), ?_, ?_, rfl⟩
  · exact congrArg some (scramble_eq _)
  · exact State.status_idle _ rfl rfl

/-- Settles O4: seven closed words. -/
theorem decodeWords : Obligations.DecodeWords := by
  refine ⟨?_, ?_, ?_, ?_, ?_, ?_, ?_⟩ <;> decide

end Sys2Proof.Machine
end

section
/-! PROOFS of the statements on SEED and GETSEED (40_state_mgmt.md): the seed transformation undone, what a command does
to a seeded block as a function of STATE alone, and a run of commands likewise; then one theorem for each statement. -/

namespace Sys2Proof.Machine

/-! ### SEED and GETSEED on a state -/

/-- A seed that is already XORed with the multiplier leaves its low 48 bits (R82 d). -/
theorem scramble_xor_multiplier (v : Lcg) : scramble (v.setWidth 64 ^^^ Config.multiplier) = v := by
  rw [scramble, BitVec.xor_assoc, BitVec.xor_self, BitVec.xor_zero, mask_truncates,
    BitVec.setWidth_setWidth_of_le _ (by decide), BitVec.setWidth_eq]

/-- Setting SEEDED on a seeded block changes nothing. -/
theorem State.setSeeded_self {s : State} (h : s.seeded = true) : s.setSeeded = s := by
  rw [State.setSeeded, ← h]

/-- GETSEED on a seeded block emits STATE and leaves it alone (R82). -/
theorem exec_getseed_seeded {s : State} {x : Lcg} (hs : s.seeded = true) (hx : s.state = some x) :
    exec .getseed s = .next (s.emitValue (x.setWidth 64)) :=
  State.ifSeeded_seeded hs hx

/-! ### What a command does to a seeded block, by STATE alone (R81) -/

/-- Every answer of the command on a seeded block with STATE = x is the same fault entry, or the same new STATE with the
same beats, whatever else the block holds. -/
def FixedByState (i : Instr) (x : Lcg) : Prop :=
  (∃ c, ∀ s : State, s.seeded = true → s.state = some x → exec i s = .next (s.raise c i.op)) ∨
    ∃ y bs, ∀ s : State, s.seeded = true → s.state = some x → exec i s = .next ((s.writeState y).emitAll bs)

/-- A command whose SEEDED check guards one write of STATE and one value beat. -/
theorem FixedByState.of_ifSeeded {i : Instr} {x : Lcg} {op : Op} (y : Lcg → Lcg) (d : Lcg → Word64)
    (h : ∀ s, exec i s = s.ifSeeded op fun x => .next ((s.writeState (y x)).emitValue (d x))) : FixedByState i x :=
  .inr ⟨y x, [⟨8#4, d x⟩], fun s hs hx => (h s).trans (State.ifSeeded_seeded hs hx)⟩

/-- A bound that is not positive faults; a positive one delivers what the sampler answers from `x`, and it answers. -/
theorem FixedByState.of_bounded {i : Instr} {m : Word32} (x : Lcg) (h : ∀ s, exec i s = s.bounded i.op m) :
    FixedByState i x := by
  rcases le_or_gt m.toInt 0 with hm | hm
  · exact .inl ⟨.boundNonpos, fun s _ _ => (h s).trans (State.bounded_nonpos hm)⟩
  · obtain ⟨res, y, hxy⟩ := sample_answers hm x
    exact .inr ⟨y, [⟨8#4, res.setWidth 64⟩], fun s hs hx => (h s).trans (State.bounded_sample hm hs hx hxy)⟩

/-- No command reads anything of a seeded block but STATE. -/
theorem fixedByState (i : Instr) (x : Lcg) : FixedByState i x := by
  cases i with
  | seed v =>
    refine .inr ⟨scramble v, [], fun s hs _ => ?_⟩
    rw [exec_seed, State.setSeeded_self (s := s.writeState _) hs, State.emitAll, List.append_nil]
  | getseed =>
    refine .inr ⟨x, [⟨8#4, x.setWidth 64⟩], fun s hs hx => ?_⟩
    rw [exec_getseed_seeded hs hx, State.writeState_self hx]
    rfl
  | step b =>
    by_cases hb : stepBitsBad b = true
    · exact .inl ⟨.stepBits, fun s _ _ => by rw [exec_step, if_pos hb]; rfl⟩
    · exact .of_ifSeeded _ _ fun s => by rw [exec_step, if_neg hb]
  | nexti32 => exact .of_ifSeeded _ _ exec_nexti32
  | nextu32 => exact .of_ifSeeded _ _ exec_nextu32
  | nexti64 => exact .of_ifSeeded _ _ exec_nexti64
  | nextu64 => exact .of_ifSeeded _ _ exec_nextu64
  | nextbool => exact .of_ifSeeded _ _ exec_nextbool
  | nextf32 => exact .of_ifSeeded _ _ exec_nextf32
  | nextf64 => exact .of_ifSeeded _ _ exec_nextf64
  | boundi32 m => exact .of_bounded x (exec_boundi32 m)
  | boundu32 m => exact .of_bounded x (exec_boundu32 m)
  | fill n => exact .inr ⟨_, _, fun s hs hx => (exec_fill n s).trans (State.ifSeeded_seeded hs hx)⟩

/-- A run of commands from a seeded, unfaulted block with STATE = x ends with a STATE, a fault record and new beats that
depend on `x` and the commands only: a fault ends it, and any other command leaves a block of the same kind. -/
theorem runCommands_fixedByState (is : List Instr) (x : Lcg) :
    ∃ (y : Lcg) (f : Option (Cause × Op)) (bs : List Beat), ∀ s : State,
      s.seeded = true → s.state = some x → s.fault = none →
        ∃ t, runCommands is s = .next t ∧
          t.state = some y ∧ t.seeded = true ∧ t.fault = f ∧ t.beats = s.beats ++ bs := by
  induction is generalizing x with
  | nil => exact ⟨x, none, [], fun s hs hx hf => ⟨s, rfl, hx, hs, hf, (List.append_nil _).symm⟩⟩
  | cons i is ih =>
    rcases fixedByState i x with ⟨c, hi⟩ | ⟨y, bs, hi⟩
    · refine ⟨x, some (c, i.op), [], fun s hs hx hf => ⟨s.raise c i.op, ?_, hx, hs, rfl, (List.append_nil _).symm⟩⟩
      rw [runCommands_cons hf (hi s hs hx), runCommands_faulted rfl]
    · obtain ⟨z, f, cs, hrun⟩ := ih y
      refine ⟨z, f, bs ++ cs, fun s hs hx hf => ?_⟩
      obtain ⟨t, ht, hz, hseed, hfault, hbeats⟩ := hrun ((s.writeState y).emitAll bs) hs rfl hf
      refine ⟨t, (runCommands_cons hf (hi s hs hx)).trans ht, hz, hseed, hfault, ?_⟩
      rw [hbeats, State.emitAll_beats, State.writeState_beats, List.append_assoc]

/-- The new beats are what a later state has appended. -/
theorem State.newBeats_of_append {s t : State} {bs : List Beat} (h : t.beats = s.beats ++ bs) : s.newBeats t = bs := by
  rw [State.newBeats, h, List.drop_left]

/-! ### The statements -/

/-- Settles O21: the leading SEED leaves both blocks seeded with the same STATE, and the rest of the run is fixed by
it. -/
theorem reseedEquivalence : Obligations.ReseedEquivalence := by
  intro v is s₁ s₂ hf₁ hf₂
  obtain ⟨y, f, bs, hrun⟩ := runCommands_fixedByState is (scramble v)
  obtain ⟨t₁, ht₁, hy₁, hs₁, hfault₁, hb₁⟩ := hrun (s₁.writeState (scramble v)).setSeeded rfl rfl hf₁
  obtain ⟨t₂, ht₂, hy₂, hs₂, hfault₂, hb₂⟩ := hrun (s₂.writeState (scramble v)).setSeeded rfl rfl hf₂
  rw [runCommands_cons hf₁ (exec_seed v s₁), runCommands_cons hf₂ (exec_seed v s₂), ht₁, ht₂]
  exact ⟨hy₁.trans hy₂.symm, hs₁.trans hs₂.symm, hfault₁.trans hfault₂.symm,
    (State.newBeats_of_append hb₁).trans (State.newBeats_of_append hb₂).symm⟩

/-- Settles O18: SEED has no check, and the seed transformation is a slice. -/
theorem seed : Obligations.Seed := by
  refine fun v s => ⟨decode_op (.seed v) v, ?_⟩
  rw [exec_seed, scramble_eq]
  rfl

/-- Settles O19: GETSEED's only check is SEEDED, and zero-extension puts 16 zeros above STATE. -/
theorem getseed : Obligations.Getseed := by
  refine fun arg s => ⟨decode_op .getseed arg, State.ifSeeded_unseeded, fun x hs hx => ?_⟩
  rw [exec_getseed_seeded hs hx, BitVec.setWidth_eq_append (by decide)]
  rfl

/-- Settles O20: the XOR undoes the one SEED makes, and GETSEED reads what SEED wrote. -/
theorem seedRestores : Obligations.SeedRestores := fun v s =>
  ⟨_, exec_seed _ s, congrArg some (scramble_xor_multiplier v),
    exec_getseed_seeded rfl (congrArg some (scramble_xor_multiplier v))⟩

end Sys2Proof.Machine
end

section
/-! PROOFS of the statements on `Advance()`, `Next(b)` and STEP (41_step.md): the new state as a number, the orbit of a
state one bit at a time, the bits of the extracted word, and STEP's three answers; then one theorem for each
statement. -/

namespace Sys2Proof.Machine

/-! ### The full period (R91 c) -/

/-- A 48-bit value is even or odd. -/
theorem lcg_even_or_odd (d : Lcg) : ∃ e : Lcg, d = 2 * e ∨ d = 2 * e + 1 := by
  obtain ⟨k, hk⟩ := Nat.even_or_odd' d.toNat
  have hd : ((d.toNat : Nat) : Lcg) = d :=
    (BitVec.ofNat_toNat 48 d).trans (BitVec.setWidth_eq d)
  refine ⟨(k : Lcg), hk.imp (fun h => ?_) fun h => ?_⟩
  · rw [← hd, h, Nat.cast_mul, Nat.cast_ofNat]
  · rw [← hd, h, Nat.cast_add, Nat.cast_mul, Nat.cast_ofNat, Nat.cast_one]

/-- Fewer than `2 ^ k` advances reach any residue modulo `2 ^ k`. If they leave bit `k` wrong, `2 ^ k` more flip it and
keep the bits below. -/
theorem advances_reach_mod_two_pow (k : Nat) (x y : Lcg) : ∃ n < 2 ^ k, ∃ d : Lcg, y = advances n x + 2 ^ k * d := by
  induction k with
  | zero => exact ⟨0, Nat.one_pos, y - x, by rw [advances_zero]; ring⟩
  | succ k ih =>
    obtain ⟨n, hn, d, hy⟩ := ih
    obtain ⟨e, rfl | rfl⟩ := lcg_even_or_odd d
    · exact ⟨n, by omega, e, by rw [hy]; ring⟩
    · obtain ⟨q, r, hflip⟩ := advances_two_pow k
      refine ⟨n + 2 ^ k, by omega, e - r - 2 * q * advances n x, ?_⟩
      rw [advances_add, hflip, hy]
      ring

/-! ### The bits of the word of `Next(b)` (R92) -/

/-- The word of `Next(b)` is the shifted state, cut to 32 bits. -/
theorem extract_eq_ofNat (b : Nat) (x : Lcg) : extract b x = BitVec.ofNat 32 (x.toNat / 2 ^ (48 - b)) :=
  BitVec.eq_of_toNat_eq (by rw [extract_toNat, BitVec.toNat_ofNat])

/-- Bit `j` of the word of `Next(b)` is bit `48 - b + j` of the new state, which is 0 from bit 48 on. -/
theorem extract_getLsbD {j : Nat} (hj : j < 32) (b : Nat) (x : Lcg) :
    (extract b x).getLsbD j = x.getLsbD (48 - b + j) := by
  rw [extract_eq_ofNat, BitVec.getLsbD_ofNat, decide_eq_true hj, Bool.true_and, Nat.testBit_div_two_pow,
    Nat.add_comm]
  exact BitVec.testBit_toNat x

/-! ### STEP's answers (R93, R151, R153) -/

/-- A bit count above 48 faults, whatever SEEDED. -/
theorem exec_step_bad {b : Nat} (h : 48 < b) (s : State) : exec (.step b) s = .next (s.raise .stepBits opStep) := by
  rw [exec_step, if_pos ((stepBitsBad_iff b).mpr h)]

/-- A bit count up to 48 leaves STEP with the SEEDED check. -/
theorem exec_step_ok {b : Nat} (h : b ≤ 48) (s : State) : exec (.step b) s = s.ifSeeded opStep fun x =>
    .next ((s.writeState (advance x)).emitValue ((extract b (advance x)).signExtend 64)) := by
  rw [exec_step, if_neg ((stepBitsBad_iff b).not.mpr (by omega))]

/-! ### The statements -/

/-- Settles O22: AND MASK is truncation, and the 64-bit operations wrap. -/
theorem advanceArithmetic : Obligations.AdvanceArithmetic := by
  intro x
  have hx : x.toNat % 2 ^ 64 = x.toNat := Nat.mod_eq_of_lt (x.isLt.trans (by decide))
  rw [advance, mask_truncates, BitVec.toNat_setWidth, BitVec.toNat_add, BitVec.toNat_mul, BitVec.toNat_setWidth, hx,
    Nat.mod_add_mod]
  rfl

/-- Settles O23: the constant is the multiplier's inverse modulo `2 ^ 48`. -/
theorem advanceInverse : Obligations.AdvanceInverse := by
  intro x y
  have hinv : 0x5DEECE66D#48 * 0xDFE05BCB1365#48 = 1 := by decide
  rw [advance_eq]
  constructor <;> intro h
  · linear_combination 0xDFE05BCB1365#48 * h - x * hinv
  · linear_combination 0x5DEECE66D#48 * h + (y - 11#48) * hinv

/-- Settles O24: modulo `2 ^ 48` every value is reached, and a 48-bit value is its residue. -/
theorem advanceFullPeriod : Obligations.AdvanceFullPeriod := by
  intro x y
  obtain ⟨n, hn, d, hy⟩ := advances_reach_mod_two_pow 48 x y
  exact ⟨n, hn, by rw [hy, two_pow_lcg_eq_zero, zero_mul, add_zero]⟩

/-- Settles O25: `Next(b)` is one advance and the extractor, whose word is known as a number. -/
theorem nextExtracts : Obligations.NextExtracts :=
  fun b x _ => ⟨draw_snd b x, extract_toNat b (advance x)⟩

/-- Settles O26: from `j = b` on the bit lies above STATE[47]. -/
theorem nextBits : Obligations.NextBits := by
  intro b j x hb hj
  rw [draw_fst, extract_getLsbD hj]
  by_cases h : j < b
  · rw [decide_eq_true h, Bool.true_and]
  · rw [decide_eq_false h, Bool.false_and, BitVec.getLsbD_of_ge _ _ (by omega)]

/-- Settles O27: the argument check first, then the SEEDED check, then the one draw. -/
theorem stepCommand : Obligations.Step := by
  refine fun arg s => ⟨decode_op (.step 0) arg, fun hb => exec_step_bad hb s, fun hb hs => ?_, fun x hb hs hx => ?_⟩
  · rw [exec_step_ok hb, State.ifSeeded_unseeded hs]
    rfl
  · rw [exec_step_ok hb, State.ifSeeded_seeded hs hx, extract_eq_ofNat]
    rfl

end Sys2Proof.Machine
end

section
/-! PROOFS of the statements on typed output (42_typed_output.md): the word of `Next(b)` as a slice of the new STATE,
the combinations of two words, the float patterns and their values, and FILL's buffer; then one theorem for each
statement. -/

namespace Sys2Proof.Machine

/-! ### The word of `Next(b)` as a slice (R92) -/

/-- The top `b` bits of STATE are below `2 ^ b`. -/
theorem lcg_div_lt {b : Nat} (hb : b ≤ 48) (x : Lcg) : x.toNat / 2 ^ (48 - b) < 2 ^ b := by
  rw [Nat.div_lt_iff_lt_mul (Nat.two_pow_pos _), ← pow_add, Nat.add_sub_cancel' hb]
  exact x.isLt

/-- Up to 32 bits, `Next(b)` cuts nothing off the shifted state. -/
theorem extract_toNat_of_le {b : Nat} (hb : b ≤ 32) (x : Lcg) : (extract b x).toNat = x.toNat / 2 ^ (48 - b) := by
  rw [extract_toNat, Nat.mod_eq_of_lt ((lcg_div_lt (by omega) x).trans_le (Nat.pow_le_pow_right (by decide) hb))]

/-- Up to 32 bits, the low `b` bits of `Next(b)` are the top `b` bits of STATE. -/
theorem extract_low_eq_slice {b : Nat} (hb : b ≤ 32) (x : Lcg) :
    (extract b x).extractLsb' 0 b = x.extractLsb' (48 - b) b := by
  apply BitVec.eq_of_toNat_eq
  rw [BitVec.extractLsb'_toNat, BitVec.extractLsb'_toNat, extract_toNat_of_le hb, Nat.shiftRight_zero,
    Nat.shiftRight_eq_div_pow]

/-- `Next(32)` is STATE[47:16]. -/
theorem extract_32_eq_slice (x : Lcg) : extract 32 x = x.extractLsb' 16 32 :=
  BitVec.extractLsb'_eq_self.symm.trans (extract_low_eq_slice le_rfl x)

/-- The sign of STATE[47:16] is STATE[47]. -/
theorem slice_msb (x : Lcg) : (x.extractLsb' 16 32).msb = x.getLsbD 47 := by
  rw [BitVec.msb_eq_getLsbD_last, BitVec.getLsbD_extractLsb']
  rfl

/-- STATE[47], zero-extended. -/
theorem slice_bit_setWidth (x : Lcg) :
    (x.extractLsb' 47 1).setWidth 64 = if x.getLsbD 47 then 1#64 else 0#64 := by
  have h : ∀ b : BitVec 1, b.setWidth 64 = if b == 1#1 then 1#64 else 0#64 := by decide
  rw [BitVec.getLsbD_eq_extractLsb', h]

/-! ### Two words as one 64-bit value (R103, R109) -/

/-- Sign-extension and wrapping addition are the exact signed sum, wrapped. -/
theorem combine64_eq_ofInt (hi lo : Word32) : combine64 hi lo = BitVec.ofInt 64 (hi.toInt * 2 ^ 32 + lo.toInt) := by
  rw [combine64, BitVec.shiftLeft_eq_mul_twoPow, BitVec.ofInt_add, BitVec.ofInt_mul]
  rfl

/-- The shift drops the sign-extension of the high word. -/
theorem signExtend_shiftLeft_toNat (hi : Word32) : (hi.signExtend 64 <<< 32).toNat = hi.toNat * 2 ^ 32 := by
  have h : hi.toNat % 2 ^ 64 = hi.toNat := Nat.mod_eq_of_lt (hi.isLt.trans (by decide))
  rw [BitVec.toNat_shiftLeft, BitVec.toNat_signExtend, BitVec.toNat_setWidth, h, Nat.shiftLeft_eq]
  split <;> omega

theorem word_append_toNat (hi lo : Word32) : (hi ++ lo).toNat = hi.toNat * 2 ^ 32 + lo.toNat := by
  rw [BitVec.toNat_append, ← Nat.shiftLeft_add_eq_or_of_lt lo.isLt, Nat.shiftLeft_eq]

/-- A negative low word borrows one from the high word (R103 a). -/
theorem combine64_eq_append (hi lo : Word32) : combine64 hi lo = (if lo.msb then hi - 1#32 else hi) ++ lo := by
  have hlo : lo.toNat % 2 ^ 64 = lo.toNat := Nat.mod_eq_of_lt (lo.isLt.trans (by decide))
  apply BitVec.eq_of_toNat_eq
  rw [combine64, BitVec.toNat_add, signExtend_shiftLeft_toNat, BitVec.toNat_signExtend, BitVec.toNat_setWidth, hlo,
    word_append_toNat]
  split
  · rw [BitVec.toNat_sub, BitVec.toNat_ofNat]
    omega
  · omega

/-- The sum of R109 on the words of `Next(26)` and `Next(27)` does not wrap. -/
theorem combine53_toNat (x y : Lcg) : (combine53 (extract 26 x) (extract 27 y)).toNat =
    x.toNat / 2 ^ 22 * 2 ^ 27 + y.toNat / 2 ^ 21 := by
  have hx : x.toNat / 2 ^ 22 < 2 ^ 26 := lcg_div_lt (b := 26) (by decide) x
  have hy : y.toNat / 2 ^ 21 < 2 ^ 27 := lcg_div_lt (b := 27) (by decide) y
  rw [combine53, BitVec.toNat_add, BitVec.toNat_shiftLeft, BitVec.toNat_setWidth, BitVec.toNat_setWidth,
    extract_toNat_of_le (by decide), extract_toNat_of_le (by decide), Nat.shiftLeft_eq]
  omega

/-- The sum of R109 is in the domain of `F64`. -/
theorem combine53_lt (x y : Lcg) : (combine53 (extract 26 x) (extract 27 y)).toNat < 2 ^ 53 := by
  have hx : x.toNat / 2 ^ 22 < 2 ^ 26 := lcg_div_lt (b := 26) (by decide) x
  have hy : y.toNat / 2 ^ 21 < 2 ^ 27 := lcg_div_lt (b := 27) (by decide) y
  rw [combine53_toNat]
  omega

theorem combine53_eq_ofNat (x y : Lcg) : combine53 (extract 26 x) (extract 27 y) =
    BitVec.ofNat 64 (x.toNat / 2 ^ 22 * 2 ^ 27 + y.toNat / 2 ^ 21) := by
  rw [← combine53_toNat, BitVec.ofNat_toNat, BitVec.setWidth_eq]

/-! ### The highest 1 bit is the binary logarithm (R106, R108) -/

theorem log2_eq_of_testBit {n e : Nat} (he : n.testBit e = true) (h : n < 2 ^ (e + 1)) : n.log2 = e := by
  have hge := Nat.ge_two_pow_of_testBit he
  exact (Nat.log2_eq_iff (ne_of_gt ((Nat.two_pow_pos e).trans_le hge))).mpr ⟨hge, h⟩

/-- A bit with only zeros above it is the logarithm. -/
theorem log2_toNat_of_highest {w e : Nat} {v : BitVec w} (he : v.getLsbD e = true)
    (h : ∀ j, e < j → v.getLsbD j = false) : v.toNat.log2 = e :=
  log2_eq_of_testBit he (Nat.lt_pow_two_of_testBit _ h)

/-- The search from bit `n` down finds the logarithm of a value below `2 ^ (n + 1)`. -/
theorem highestBit_eq_log2 {w n : Nat} {v : BitVec w} (h : v.toNat < 2 ^ (n + 1)) : highestBit v n = v.toNat.log2 := by
  induction n with
  | zero => rw [highestBit, Nat.log2_def, if_neg (by omega)]
  | succ n ih =>
    rw [highestBit]
    split
    · next hb => exact (log2_eq_of_testBit hb h).symm
    · next hb =>
      refine ih (Nat.lt_pow_two_of_testBit _ fun i hi => ?_)
      rcases hi.eq_or_lt with rfl | hi
      · exact Bool.eq_false_iff.mpr hb
      · exact Nat.testBit_eq_false_of_lt (h.trans_le (Nat.pow_le_pow_right (by decide) hi))

/-! ### The float patterns (R106, R108) -/

theorem f32_of_ne_zero {v : BitVec 24} (hv : v ≠ 0#24) : f32 v =
    0#1 ++ BitVec.ofNat 8 (v.toNat.log2 + 103) ++ (v.setWidth 32 <<< (23 - v.toNat.log2)).extractLsb' 0 23 := by
  rw [f32, if_neg hv, highestBit_eq_log2 v.isLt]

theorem f64_of_ne_zero {v : Word64} (hv : v ≠ 0#64) (h : v.toNat < 2 ^ 53) : f64 v =
    0#1 ++ BitVec.ofNat 11 (v.toNat.log2 + 970) ++ (v <<< (52 - v.toNat.log2)).extractLsb' 0 52 := by
  rw [f64, if_neg hv, highestBit_eq_log2 h]

/-- A value with a 1 bit is not 0. -/
theorem ne_zero_of_getLsbD {w e : Nat} {v : BitVec w} (he : v.getLsbD e = true) : v ≠ 0#w := by
  rintro rfl
  simp at he

/-! A pattern {0, E, F} read field by field; E is the exponent and F the fraction. -/

section
variable {k m : Nat} (E : BitVec k) (F : BitVec m)

theorem pattern_fraction : (0#1 ++ E ++ F).extractLsb' 0 m = F :=
  BitVec.extractLsb'_append_eq_right

theorem pattern_exponent : (0#1 ++ E ++ F).extractLsb' m k = E := by
  rw [BitVec.extractLsb'_append_eq_of_le le_rfl, Nat.sub_self, BitVec.extractLsb'_append_eq_right]

theorem pattern_sign : (0#1 ++ E ++ F).extractLsb' (m + k) 1 = 0#1 := by
  rw [BitVec.extractLsb'_append_eq_of_le (Nat.le_add_right _ _), Nat.add_sub_cancel_left,
    BitVec.extractLsb'_append_eq_left]

/-- The sign bit read alone. -/
theorem pattern_msb : (0#1 ++ E ++ F).getLsbD (m + k) = false := by
  rw [BitVec.getLsbD_eq_extractLsb', pattern_sign]
  rfl

/-- A pattern with an exponent is not the pattern of +0.0. -/
theorem pattern_ne_zero (hE : E ≠ 0#k) : 0#1 ++ E ++ F ≠ 0#(1 + k + m) := by
  intro h
  have he := pattern_exponent E F
  rw [h, BitVec.extractLsb'_zero] at he
  exact hE he.symm

end

/-- The value of a positive normal binary32 pattern. -/
theorem binary32Value_pattern {E : BitVec 8} (hE : E ≠ 0#8) (F : BitVec 23) :
    binary32Value (0#1 ++ E ++ F) = (1 + (F.toNat : ℚ) / 2 ^ 23) * 2 ^ ((E.toNat : ℤ) - 127) := by
  rw [binary32Value, if_neg (pattern_ne_zero E F hE), pattern_fraction, pattern_exponent,
    show (0#1 ++ E ++ F).extractLsb' 31 1 = 0#1 from pattern_sign E F, BitVec.toNat_zero, pow_zero, one_mul]

/-- The value of a positive normal binary64 pattern. -/
theorem binary64Value_pattern {E : BitVec 11} (hE : E ≠ 0#11) (F : BitVec 52) :
    binary64Value (0#1 ++ E ++ F) = (1 + (F.toNat : ℚ) / 2 ^ 52) * 2 ^ ((E.toNat : ℤ) - 1023) := by
  rw [binary64Value, if_neg (pattern_ne_zero E F hE), pattern_fraction, pattern_exponent,
    show (0#1 ++ E ++ F).extractLsb' 63 1 = 0#1 from pattern_sign E F, BitVec.toNat_zero, pow_zero, one_mul]

/-- The fraction field as a number. -/
theorem shiftLeft_low_toNat {w m : Nat} (hm : m ≤ w) (v : BitVec w) (k : Nat) :
    ((v <<< k).extractLsb' 0 m).toNat = v.toNat * 2 ^ k % 2 ^ m := by
  rw [BitVec.extractLsb'_toNat, BitVec.toNat_shiftLeft, Nat.shiftRight_zero, Nat.shiftLeft_eq,
    Nat.mod_mod_of_dvd _ (Nat.pow_dvd_pow 2 hm)]

/-- Left-justifying `v` to bit `m` puts its highest 1 bit there, and the fraction is what is below. -/
theorem leftJustified_mod {v k m : Nat} (hv : v ≠ 0) (hm : v.log2 + k = m) :
    v * 2 ^ k % 2 ^ m = v * 2 ^ k - 2 ^ m ∧ 2 ^ m ≤ v * 2 ^ k := by
  have hge : 2 ^ m ≤ v * 2 ^ k := by
    rw [← hm, pow_add]
    exact Nat.mul_le_mul_right _ (Nat.log2_self_le hv)
  have hlt : v * 2 ^ k < 2 ^ m + 2 ^ m := by
    rw [← hm, ← two_mul, ← pow_succ', add_right_comm, pow_add]
    exact Nat.mul_lt_mul_of_pos_right Nat.lt_log2_self (Nat.two_pow_pos k)
  exact ⟨by rw [Nat.mod_eq_sub_mod hge, Nat.mod_eq_of_lt (by omega)], hge⟩

/-- The significand with its implicit 1, scaled by the exponent, is the quotient. -/
theorem significand_value {v m : Nat} (hv : v ≠ 0) (h : v < 2 ^ (m + 1)) :
    (1 + ((v * 2 ^ (m - v.log2) % 2 ^ m : ℕ) : ℚ) / 2 ^ m) * 2 ^ ((v.log2 : ℤ) - (m + 1)) = v / 2 ^ (m + 1) := by
  obtain ⟨k, hk⟩ := Nat.exists_eq_add_of_le (Nat.lt_succ_iff.mp ((Nat.log2_lt hv).mpr h))
  obtain ⟨hmod, hge⟩ := leftJustified_mod hv hk.symm
  have hexp : (v.log2 : ℤ) - (m + 1) = -((k + 1 : ℕ) : ℤ) := by omega
  rw [show m - v.log2 = k by omega, hmod, Nat.cast_sub hge, hexp, zpow_neg, zpow_natCast]
  push_cast
  field_simp
  ring

theorem log2_toNat_lt {w n : Nat} {v : BitVec w} (hv : v ≠ 0#w) (h : v.toNat < 2 ^ n) : v.toNat.log2 < n :=
  (Nat.log2_lt (BitVec.toNat_ne_iff_ne.mpr hv)).mpr h

/-- The exponent of a value below `2 ^ n` fits a field of `k` bits. -/
theorem exponent_toNat {w k n bias : Nat} {v : BitVec w} (hv : v ≠ 0#w) (h : v.toNat < 2 ^ n)
    (hk : n + bias ≤ 2 ^ k) : (BitVec.ofNat k (v.toNat.log2 + bias)).toNat = v.toNat.log2 + bias := by
  have hl := log2_toNat_lt hv h
  exact Nat.mod_eq_of_lt (by omega)

/-- A positive exponent field is not the field of +0.0. -/
theorem exponent_ne_zero {w k n bias : Nat} {v : BitVec w} (hv : v ≠ 0#w) (h : v.toNat < 2 ^ n)
    (hk : n + bias ≤ 2 ^ k) (hb : 0 < bias) : BitVec.ofNat k (v.toNat.log2 + bias) ≠ 0#k := by
  rw [← BitVec.toNat_ne_iff_ne, exponent_toNat hv h hk, BitVec.toNat_zero]
  omega

theorem f32_value (v : BitVec 24) : binary32Value (f32 v) = (v.toNat : ℚ) / 2 ^ 24 := by
  by_cases hv : v = 0#24
  · subst hv
    exact (zero_div _).symm
  · have hw : (v.setWidth 32).toNat = v.toNat := BitVec.toNat_setWidth_of_le (by decide)
    have hexp : ((v.toNat.log2 + 103 : Nat) : ℤ) - 127 = v.toNat.log2 - ((23 : Nat) + 1) := by omega
    rw [f32_of_ne_zero hv, binary32Value_pattern (exponent_ne_zero hv v.isLt (by decide) (by decide)),
      shiftLeft_low_toNat (by decide), hw, exponent_toNat hv v.isLt (by decide), hexp]
    exact significand_value (BitVec.toNat_ne_iff_ne.mpr hv) v.isLt

theorem f64_value {v : Word64} (h : v.toNat < 2 ^ 53) : binary64Value (f64 v) = (v.toNat : ℚ) / 2 ^ 53 := by
  by_cases hv : v = 0#64
  · subst hv
    exact (zero_div _).symm
  · have hexp : ((v.toNat.log2 + 970 : Nat) : ℤ) - 1023 = v.toNat.log2 - ((52 : Nat) + 1) := by omega
    rw [f64_of_ne_zero hv h, binary64Value_pattern (exponent_ne_zero hv h (by decide) (by decide)),
      shiftLeft_low_toNat (by decide), exponent_toNat hv h (by decide), hexp]
    exact significand_value (BitVec.toNat_ne_iff_ne.mpr hv) h

/-- A quotient of a value below `2 ^ n` by `2 ^ n` lies in [0, 1). -/
theorem quotient_mem_unit {v n : Nat} (h : v < 2 ^ n) : 0 ≤ (v : ℚ) / 2 ^ n ∧ (v : ℚ) / 2 ^ n < 1 :=
  ⟨by positivity, (div_lt_one (by positivity)).mpr (by exact_mod_cast h)⟩

/-- `F32` gives +0.0 or a positive normal pattern of a number below 1. -/
theorem f32_normal (v : BitVec 24) : f32 v = 0#32 ∨
    0 < ((f32 v).extractLsb' 23 8).toNat ∧ ((f32 v).extractLsb' 23 8).toNat < 127 ∧ (f32 v).getLsbD 31 = false := by
  by_cases hv : v = 0#24
  · exact .inl (if_pos hv)
  · have hl := log2_toNat_lt hv v.isLt
    rw [f32_of_ne_zero hv, pattern_exponent, exponent_toNat hv v.isLt (by decide)]
    exact .inr ⟨by omega, by omega, pattern_msb _ _⟩

/-- `F64` in its domain gives +0.0 or a positive normal pattern of a number below 1. -/
theorem f64_normal {v : Word64} (h : v.toNat < 2 ^ 53) : f64 v = 0#64 ∨
    0 < ((f64 v).extractLsb' 52 11).toNat ∧ ((f64 v).extractLsb' 52 11).toNat < 1023 ∧ (f64 v).getLsbD 63 = false := by
  by_cases hv : v = 0#64
  · exact .inl (if_pos hv)
  · have hl := log2_toNat_lt hv h
    rw [f64_of_ne_zero hv h, pattern_exponent, exponent_toNat hv h (by decide)]
    exact .inr ⟨by omega, by omega, pattern_msb _ _⟩

/-! ### FILL's buffer (R41, R100) -/

/-- Byte `j` of the buffer: byte `j` mod 4, the lowest first, of word ⌊j/4⌋ + 1 of the command. -/
def fillByte (x : Lcg) (j : Nat) : Byte :=
  ((advances (j / 4 + 1) x).extractLsb' 16 32).extractLsb' (8 * (j % 4)) 8

/-- The model's beat is the one claims name. -/
theorem fillBeat_extract {k : Nat} (x : Lcg) : fillBeat k (extract 32 x) =
    ⟨BitVec.ofNat 4 k, BitVec.ofNat 64 (x.toNat / 2 ^ 16 % 2 ^ (8 * k))⟩ := by
  rw [fillBeat, ← BitVec.ofNat_toNat 64, BitVec.toNat_setWidth, extract_toNat_of_le le_rfl]

theorem fillLoop_eq_fillBeatsOf (n : Nat) (x : Lcg) :
    fillLoop n x (fillChunks n) = (fillBeatsOf n x, advances ((n + 3) / 4) x) := by
  refine Prod.ext ?_ (fillLoop_state n _ x)
  rw [fillLoop_beats]
  exact List.map_congr_left fun i _ => fillBeat_extract _

/-- The bytes of chunk `i`. -/
theorem fillBeat_bytes {k : Nat} (hk : k ≤ 4) (i : Nat) (x : Lcg) :
    (⟨BitVec.ofNat 4 k, BitVec.ofNat 64 ((advances (i + 1) x).toNat / 2 ^ 16 % 2 ^ (8 * k))⟩ : Beat).bytes =
      (List.range k).map fun j => fillByte x (4 * i + j) := by
  have hnb : (BitVec.ofNat 4 k).toNat = k := Nat.mod_eq_of_lt (by omega)
  rw [Beat.bytes, hnb]
  refine List.map_congr_left fun j hj => ?_
  have hj : j < k := List.mem_range.mp hj
  rw [fillByte, show (4 * i + j) / 4 = i by omega, show (4 * i + j) % 4 = j by omega]
  refine BitVec.eq_of_getLsbD_eq fun b hb => ?_
  have hk8 : 8 * j + b < 8 * k := by omega
  have h64 : 8 * j + b < 64 := by omega
  have h32 : 8 * j + b < 32 := by omega
  simp only [BitVec.getLsbD_extractLsb', BitVec.getLsbD_ofNat, Nat.testBit_mod_two_pow, Nat.testBit_div_two_pow,
    BitVec.testBit_toNat, hb, hk8, h64, h32, decide_true, Bool.true_and, Nat.add_comm 16]

/-- The bytes of the first `c` chunks are the first `4c` of the buffer, or all `n`. -/
theorem fillBytes_of_chunks (f : Nat → Byte) (n c : Nat) :
    ((List.range c).flatMap fun i => (List.range (min 4 (n - 4 * i))).map fun j => f (4 * i + j)) =
      (List.range (min (4 * c) n)).map f := by
  induction c with
  | zero => rfl
  | succ c ih =>
    rw [List.range_succ, List.flatMap_append, ih, List.flatMap_singleton]
    rcases Nat.le_total n (4 * c) with h | h
    · rw [show min 4 (n - 4 * c) = 0 by omega, show min (4 * (c + 1)) n = min (4 * c) n by omega]
      exact List.append_nil _
    · rw [show min (4 * (c + 1)) n = 4 * c + min 4 (n - 4 * c) by omega, Nat.min_eq_left h, List.range_add,
        List.map_append, List.map_map]
      rfl

/-- The buffer after FILL `n` (R100). -/
theorem bufferBytes_fillBeatsOf (n : Nat) (x : Lcg) :
    bufferBytes (fillBeatsOf n x) = (List.range n).map (fillByte x) := by
  rw [bufferBytes, fillBeatsOf, List.flatMap_map]
  simp only [fillBeat_bytes (Nat.min_le_left 4 _)]
  rw [fillBytes_of_chunks, Nat.min_eq_right (by omega)]

/-! ### The statements -/

/-- Settles O28: the loop emits the beats of `fillBeatsOf`, whose bytes are the buffer's, chunk by chunk. -/
theorem fill : Obligations.Fill := by
  refine fun arg s => ⟨decode_op (.fill 0) arg, State.ifSeeded_unseeded, fun x hs hx => ⟨?_, ?_, fun j hj => ?_⟩⟩
  · rw [exec_fill, State.ifSeeded_seeded hs hx, fillLoop_eq_fillBeatsOf]
    rfl
  · rw [bufferBytes_fillBeatsOf, List.length_map, List.length_range]
  · rw [bufferBytes_fillBeatsOf, List.getD_eq_getElem _ _ (by simpa using hj), List.getElem_map, List.getElem_range]
    rfl

/-- Settles O29: the word is the slice, and sign-extension keeps the signed value. -/
theorem nexti32 : Obligations.Nexti32 := by
  refine fun arg s => ⟨decode_op .nexti32 arg, State.ifSeeded_unseeded, fun x hs hx =>
    ⟨_, ?_, (exec_nexti32 s).trans (State.ifSeeded_seeded hs hx)⟩⟩
  rw [extract_32_eq_slice, BitVec.toInt_signExtend_of_le (by decide)]

/-- Settles O30: the word is the shifted state, and zero-extension keeps the unsigned value. -/
theorem nextu32 : Obligations.Nextu32 := by
  refine fun arg s => ⟨decode_op .nextu32 arg, State.ifSeeded_unseeded, fun x hs hx =>
    ⟨_, ?_, (exec_nextu32 s).trans (State.ifSeeded_seeded hs hx)⟩⟩
  rw [BitVec.toNat_setWidth_of_le (by decide), extract_toNat_of_le le_rfl]

/-- Settles O31: two advances, and the combination is the exact signed sum, wrapped. -/
theorem nexti64 : Obligations.Nexti64 := by
  refine fun arg s => ⟨decode_op .nexti64 arg, State.ifSeeded_unseeded, fun x hs hx => ?_⟩
  rw [exec_nexti64, State.ifSeeded_seeded hs hx, combine64_eq_ofInt, extract_32_eq_slice, extract_32_eq_slice]
  rfl

/-- Settles O32: NEXTU64 runs the same body as NEXTI64. -/
theorem nextu64 : Obligations.Nextu64 := by
  refine fun arg s => ⟨decode_op .nextu64 arg, State.ifSeeded_unseeded, fun x hs hx => ?_⟩
  rw [exec_nextu64, State.ifSeeded_seeded hs hx, combine64_eq_ofInt, extract_32_eq_slice, extract_32_eq_slice]
  rfl

/-- Settles O33: the combination as high word over low word, with the borrow read from STATE[47]. -/
theorem nexti64Borrow : Obligations.Nexti64Borrow := by
  intro s x hs hx
  rw [exec_nexti64, State.ifSeeded_seeded hs hx, combine64_eq_append, extract_32_eq_slice, extract_32_eq_slice,
    slice_msb]
  rfl

/-- Settles O34: the low bit of `Next(1)` is STATE[47]. -/
theorem nextbool : Obligations.Nextbool := by
  refine fun arg s => ⟨decode_op .nextbool arg, State.ifSeeded_unseeded, fun x hs hx => ?_⟩
  rw [exec_nextbool, State.ifSeeded_seeded hs hx, extract_low_eq_slice (by decide), slice_bit_setWidth]
  rfl

/-- Settles O35: the highest 1 bit is the logarithm, and the left-justified significand scales to the quotient. -/
theorem f32Conversion : Obligations.F32Conversion := by
  refine ⟨rfl, fun v e he h => ?_, f32_value⟩
  rw [f32_of_ne_zero (ne_zero_of_getLsbD he), log2_toNat_of_highest he h]

/-- Settles O36: the low 24 bits of `Next(24)` are STATE[47:24], and zero-extension puts 32 zeros above the pattern. -/
theorem nextf32 : Obligations.Nextf32 := by
  refine fun arg s => ⟨decode_op .nextf32 arg, State.ifSeeded_unseeded, fun x hs hx => ?_⟩
  rw [exec_nextf32, State.ifSeeded_seeded hs hx, extract_low_eq_slice (by decide), setWidth_eq_zero_append]
  rfl

/-- Settles O37: as for `F32`, on the domain below `2 ^ 53`. -/
theorem f64Conversion : Obligations.F64Conversion := by
  refine ⟨rfl, fun v e hv he h => ?_, fun v => f64_value⟩
  rw [f64_of_ne_zero (ne_zero_of_getLsbD he) hv, log2_toNat_of_highest he h]

/-- Settles O38: the combination of the two words does not wrap. -/
theorem nextf64 : Obligations.Nextf64 := by
  refine fun arg s => ⟨decode_op .nextf64 arg, State.ifSeeded_unseeded, fun x hs hx => ?_⟩
  rw [exec_nextf64, State.ifSeeded_seeded hs hx, combine53_eq_ofNat]
  rfl

/-- Settles O39: the operands are below `2 ^ 24` and `2 ^ 53`, so the patterns are normal and the quotients below 1. -/
theorem floatRange : Obligations.FloatRange := by
  intro s x hs hx
  obtain ⟨-, -, h32⟩ := nextf32 0 s
  refine ⟨⟨_, _, h32 x hs hx, rfl, f32_normal _, ?_⟩, ⟨_, _, (exec_nextf64 s).trans (State.ifSeeded_seeded hs hx), rfl,
    f64_normal (combine53_lt _ _), ?_⟩⟩
  · rw [f32_value]
    exact quotient_mem_unit (BitVec.isLt _)
  · rw [f64_value (combine53_lt _ _)]
    exact quotient_mem_unit (combine53_lt _ _)

end Sys2Proof.Machine
end

section
/-! PROOFS of the statements on the bounded sampler (43_bounded.md): IsPow2 as a bit test, the acceptance test as a
bound on the draw, the scaled draw as a number, and both bounds on each path; then one theorem for each statement. -/

namespace Sys2Proof.Machine

/-! ### Powers of two (R130) -/

/-- A 32-bit value needs no bound on the exponent. -/
theorem isPow2_iff_exists (m : Word32) : isPow2 m = true ↔ ∃ k : Nat, m.toNat = 2 ^ k := by
  rw [isPow2_iff]
  refine ⟨fun ⟨k, _, hk⟩ => ⟨k, hk⟩, fun ⟨k, hk⟩ => ⟨k, ?_, hk⟩⟩
  exact (Nat.pow_lt_pow_iff_right (by decide)).mp (hk ▸ m.isLt)

/-- For m ≠ 0, m - 1 does not wrap, and m AND m - 1 is the bit test on the number. -/
theorem and_sub_one_eq_zero_iff {m : Word32} (hm : m ≠ 0#32) :
    m &&& (m - 1#32) = 0#32 ↔ m.toNat &&& (m.toNat - 1) = 0 := by
  have hpos : 0 < m.toNat := Nat.pos_of_ne_zero (BitVec.toNat_ne_iff_ne.mpr hm)
  have hle : 1#32 ≤ m := BitVec.le_def.mpr hpos
  rw [BitVec.toNat_eq, BitVec.toNat_and, BitVec.toNat_sub_of_le hle]
  rfl

/-! ### The acceptance test (R133) -/

/-- The draw's multiple of `m` and the `m - 1` values above it all lie below `N` exactly when the draw lies below the
largest multiple of `m` up to `N`. -/
theorem sub_mod_add_lt_iff {m b N : Nat} (hm : 0 < m) : b - b % m + (m - 1) < N ↔ b < m * (N / m) := by
  have hmul : b - b % m = m * (b / m) := by have := Nat.div_add_mod b m; omega
  calc b - b % m + (m - 1) < N
      _ ↔ (b / m + 1) * m ≤ N := by rw [hmul, Nat.add_mul, Nat.mul_comm m]; omega
      _ ↔ b / m < N / m := (Nat.le_div_iff_mul_le hm).symm
      _ ↔ b < m * (N / m) := by rw [Nat.div_lt_iff_lt_mul hm, Nat.mul_comm]

/-! ### The scaled draw (R131, R132) -/

/-- With both operands below `2 ^ 31` no sign is extended and the product does not wrap. -/
theorem scale_eq_ofNat {m r : Word32} (hm : m.toNat < 2 ^ 31) (hr : r.toNat < 2 ^ 31) :
    scale m r = BitVec.ofNat 32 (m.toNat * r.toNat / 2 ^ 31) := by
  have hlt : m.toNat * r.toNat < 2 ^ 31 * 2 ^ 31 := Nat.mul_lt_mul'' hm hr
  have hprod : (m.setWidth 64 * r.setWidth 64).toNat = m.toNat * r.toNat := by
    rw [BitVec.toNat_mul, BitVec.toNat_setWidth_of_le (by decide), BitVec.toNat_setWidth_of_le (by decide)]
    exact Nat.mod_eq_of_lt (hlt.trans (by decide))
  have hmsb : (m.setWidth 64 * r.setWidth 64).msb = false := by
    rw [BitVec.msb_eq_false_iff_two_mul_lt, hprod]; omega
  rw [scale, BitVec.signExtend_eq_setWidth_of_msb_false (BitVec.msb_eq_false_iff_two_mul_lt.mpr (by omega)),
    BitVec.signExtend_eq_setWidth_of_msb_false (BitVec.msb_eq_false_iff_two_mul_lt.mpr (by omega)),
    BitVec.sshiftRight_eq_of_msb_false hmsb, ← BitVec.ofNat_toNat, BitVec.toNat_ushiftRight, hprod,
    Nat.shiftRight_eq_div_pow]

/-- A 31-bit draw scaled by `m` lies below `m`. -/
theorem scaled_lt {m : Nat} (hm : 0 < m) (y : Lcg) : m * (y.toNat / 2 ^ 17) / 2 ^ 31 < m :=
  Nat.div_lt_of_lt_mul (by
    rw [Nat.mul_comm]
    exact Nat.mul_lt_mul_of_pos_right (lcg_div_lt (b := 31) (by decide) y) hm)

/-- Scaling by `2 ^ k` keeps the top `k` of the 31 bits. -/
theorem scaled_two_pow {k : Nat} (hk : k ≤ 31) (a : Nat) : 2 ^ k * (a / 2 ^ 17) / 2 ^ 31 = a / 2 ^ (48 - k) := by
  have h31 : 2 ^ 31 = 2 ^ k * 2 ^ (31 - k) := by rw [← pow_add, Nat.add_sub_cancel' hk]
  rw [h31, Nat.mul_div_mul_left _ _ (Nat.two_pow_pos k), Nat.div_div_eq_div_mul, ← pow_add]
  congr 2
  omega

/-! ### Both bounds on a seeded block -/

theorem exec_of_mem_bounds {i : Instr} {m : Word32} (hi : i ∈ [Instr.boundi32 m, Instr.boundu32 m]) (s : State) :
    exec i s = s.bounded i.op m := by
  rw [List.mem_pair] at hi
  rcases hi with rfl | rfl <;> rfl

/-- With SEEDED = 1 the SEEDED check records no OP. -/
theorem State.ifSeeded_op_irrelevant {s : State} {body : Lcg → Answer} (hs : s.seeded = true) (op op' : Op) :
    s.ifSeeded op body = s.ifSeeded op' body := by
  unfold State.ifSeeded; rw [if_pos hs, if_pos hs]

section
variable {s : State} {x : Lcg} {m : Word32} (op : Op) (hm : 0 < m.toInt) (hs : s.seeded = true)
include hm hs

/-- A positive bound on a seeded block records no OP (R135). -/
theorem State.bounded_op_irrelevant (op' : Op) : s.bounded op m = s.bounded op' m := by
  have hb : ¬boundBad m = true := (boundBad_iff m).not.mpr (not_le.mpr hm)
  unfold State.bounded
  rw [if_neg hb, if_neg hb, State.ifSeeded_op_irrelevant hs op op']

/-- A power of two takes one draw, scaled (R131). -/
theorem State.bounded_pow2 (hx : s.state = some x) (hp : ∃ k : Nat, m.toNat = 2 ^ k) :
    s.bounded op m = .next ((s.writeState (advance x)).emitValue
      (0#32 ++ BitVec.ofNat 32 (m.toNat * ((advance x).toNat / 2 ^ 17) / 2 ^ 31))) := by
  have hdraw : (extract 31 (advance x)).toNat = (advance x).toNat / 2 ^ 17 := extract_toNat_of_le (by decide) _
  have hlt : (extract 31 (advance x)).toNat < 2 ^ 31 := hdraw ▸ lcg_div_lt (b := 31) (by decide) _
  have hsample : sample m x = some (scale m (extract 31 (advance x)), advance x) :=
    if_pos ((isPow2_iff_exists m).mpr hp)
  rw [State.bounded_sample hm hs hx hsample, scale_eq_ofNat ((word32_toInt_pos_iff m).mp hm).2 hlt, hdraw,
    setWidth_eq_zero_append]

/-- Any other bound takes the first accepted draw, reduced: the fuel reaches it, for it comes within half a period
(R131, R134). -/
theorem State.bounded_loop (hx : s.state = some x) (hp : ¬∃ k : Nat, m.toNat = 2 ^ k) {j : Nat}
    (hj : FirstAccepted m x j) :
    s.bounded op m = .next ((s.writeState (advances j x)).emitValue (0#32 ++ loopDraw x j % m)) := by
  obtain ⟨h1, hacc, hrej⟩ := firstAccepted_iff.mp hj
  have hfuel : j ≤ Config.samplerFuel := by
    obtain ⟨n, hn, hn'⟩ := exists_firstAccepted hm x
    rw [hj.unique hn']
    exact hn.trans (by decide)
  have hsample : sample m x = some (residue m (extract 31 (advances j x)), advances j x) :=
    (if_neg ((isPow2_iff_exists m).not.mpr hp)).trans (rejectionLoop_eq h1 hfuel hacc hrej)
  rw [State.bounded_sample hm hs hx hsample, residue_eq, extract_eq_loopDraw, setWidth_eq_zero_append]

end

/-! ### The statements -/

/-- Settles O40: the model's search is the definition, and the bit test is the library's, carried to 32 bits. -/
theorem isPow2Spec : Obligations.IsPow2 := by
  refine fun m => ⟨isPow2_iff_exists m, fun hm => ?_⟩
  rw [isPow2_iff_exists, and_sub_one_eq_zero_iff hm,
    Nat.and_sub_one_eq_zero_iff_isPowerOfTwo (BitVec.toNat_ne_iff_ne.mpr hm)]
  rfl

/-- Settles O41: the argument check, the SEEDED check, and the two paths of the sampler. -/
theorem boundi32 : Obligations.Boundi32 := by
  rintro arg s m rfl
  refine ⟨decode_op (.boundi32 0) arg, State.bounded_nonpos, State.bounded_unseeded, fun x hm hs hx => ⟨?_, ?_⟩⟩
  · exact State.bounded_pow2 opBoundi32 hm hs hx
  · exact fun j hp h1 hacc hrej => State.bounded_loop opBoundi32 hm hs hx hp ⟨h1, hacc, hrej⟩

/-- Settles O42: the scaled draw of `2 ^ k` is the top `k` bits, which fit 32 bits. -/
theorem boundPow2ClosedForm : Obligations.BoundPow2ClosedForm := by
  intro s x k hk hs hx i hi
  have hlt : 2 ^ k < 2 ^ 31 := Nat.pow_lt_pow_right (by decide) (by omega)
  have hm : (BitVec.ofNat 32 (2 ^ k)).toNat = 2 ^ k := Nat.mod_eq_of_lt (hlt.trans (by decide))
  have hpos : 0 < (BitVec.ofNat 32 (2 ^ k)).toInt :=
    (word32_toInt_pos_iff _).mpr (by rw [hm]; exact ⟨Nat.two_pow_pos k, hlt⟩)
  have hres : (advance x).toNat / 2 ^ (48 - k) < 2 ^ 32 :=
    (lcg_div_lt (by omega) _).trans (hlt.trans (by decide))
  rw [exec_of_mem_bounds hi, State.bounded_pow2 _ hpos hs hx ⟨k, hm⟩, hm, scaled_two_pow (by omega),
    ← setWidth_eq_zero_append, BitVec.setWidth_ofNat_of_le_of_lt (by decide) hres]
  rfl

/-- Settles O43: for a positive bound and a 31-bit draw `t` does not wrap, so its sign is a bound on the number. -/
theorem acceptClosedForm : Obligations.AcceptClosedForm := by
  intro m bits hm hb
  rw [accepted_iff, word32_toInt_nonneg_iff, loopTest_toNat hm hb,
    sub_mod_add_lt_iff ((word32_toInt_pos_iff m).mp hm).1]

/-- Settles O44: one draw for a power of two; else the first accepted draw, which comes within half a period. -/
theorem boundTerminates : Obligations.BoundTerminates := by
  intro s x m hm hs hx i hi
  have hpos := ((word32_toInt_pos_iff m).mp hm).1
  rw [exec_of_mem_bounds hi]
  by_cases hp : ∃ k : Nat, m.toNat = 2 ^ k
  · refine ⟨1, _, fun _ => ⟨rfl, rfl⟩, fun h => absurd hp h, Nat.one_le_two_pow, ?_,
      State.bounded_pow2 _ hm hs hx hp⟩
    rw [BitVec.toNat_ofNat]
    exact (Nat.mod_le _ _).trans_lt (scaled_lt hpos _)
  · obtain ⟨j, hj, hfirst⟩ := exists_firstAccepted hm x
    refine ⟨j, _, fun h => absurd h hp, fun _ => ⟨hfirst, rfl⟩, by omega, ?_,
      State.bounded_loop _ hm hs hx hp hfirst⟩
    rw [BitVec.toNat_umod]
    exact Nat.mod_lt _ hpos

/-- Settles O45: sval(max) ≤ 0 is uval(max) = 0 or uval(max) ≥ 2^31, and past the checks OP plays no part. -/
theorem boundu32 : Obligations.Boundu32 := by
  rintro arg s m rfl
  refine ⟨decode_op (.boundu32 0) arg, fun h => ?_, fun h0 h31 => ?_, fun h0 h31 hs => ?_⟩
  · refine State.bounded_nonpos (not_lt.mp fun hm => ?_)
    have := (word32_toInt_pos_iff _).mp hm
    omega
  · exact State.bounded_unseeded ((word32_toInt_pos_iff _).mpr ⟨h0, h31⟩)
  · exact State.bounded_op_irrelevant opBoundu32 ((word32_toInt_pos_iff _).mpr ⟨h0, h31⟩) hs opBoundi32

end Sys2Proof.Machine
end

section
/-! PROOFS of the statements on exceptions (60_exceptions.md): when a command enters a fault and what it records, the
steps of an idle and of a halted block, and one block among several on a chip; then one theorem for each statement. -/

namespace Sys2Proof.Machine

/-! ### Fault entry (R153, R156, R157) -/

/-- A command that answers a next state has entered the first cause that applies, or none applies and the fault record
is as it was. -/
theorem exec_faults_or_passes {i : Instr} {s t : State} (h : exec i s = .next t) :
    (∃ c, firstCause i s.seeded = some c ∧ t = s.raise c i.op) ∨
      (firstCause i s.seeded = none ∧ t.fault = s.fault) := by
  rcases exec_next h with hc | ⟨v, rfl, rfl⟩ | ⟨x, k, bs, hr⟩
  · exact .inl hc
  · exact .inr ⟨rfl, rfl⟩
  · exact .inr ⟨hr.passes, by rw [hr.next]; rfl⟩

/-- The fault record after a command on an unfaulted block: the first cause that applies with the command's own OP. -/
theorem exec_fault {i : Instr} {s t : State} (hf : s.fault = none) (h : exec i s = .next t) :
    t.fault = (firstCause i s.seeded).map fun c => (c, i.op) := by
  rcases exec_faults_or_passes h with ⟨c, hc, rfl⟩ | ⟨hc, ht⟩
  · rw [hc]; rfl
  · rw [hc, ht, hf]; rfl

/-- The cause that the SEEDED check answers may be recorded with any command's OP but SEED's (R153). -/
theorem FaultRecord.of_seeded_check {seeded : Bool} {c : Cause} (op : Op)
    (h : (if seeded then none else some Cause.notSeeded) = some c) (ho : op ∈ assignedOps ∧ op ≠ opSeed) :
    FaultRecord seeded (c, op) := by
  cases seeded with
  | true => cases h
  | false => cases h; exact ⟨ho.1, ho.2, rfl⟩

/-- The same with an argument check before it, whose own cause may be recorded with this OP (R156). -/
theorem FaultRecord.of_arg_check {bad : Prop} [Decidable bad] {seeded : Bool} {arg c : Cause} (op : Op)
    (h : (if bad then some arg else if seeded then none else some .notSeeded) = some c)
    (harg : FaultRecord seeded (arg, op)) (ho : op ∈ assignedOps ∧ op ≠ opSeed) : FaultRecord seeded (c, op) := by
  split at h
  · cases h; exact harg
  · exact .of_seeded_check op h ho

/-- A command records a cause only with an OP that raises it, and NOT_SEEDED only while SEEDED = 0. -/
theorem firstCause_faultRecord {i : Instr} {seeded : Bool} {c : Cause} (h : firstCause i seeded = some c) :
    FaultRecord seeded (c, i.op) := by
  cases i with
  | seed v => cases h
  | step b => exact .of_arg_check opStep h rfl (by decide)
  | boundi32 m => exact .of_arg_check opBoundi32 h (.inl rfl) (by decide)
  | boundu32 m => exact .of_arg_check opBoundu32 h (.inr rfl) (by decide)
  | getseed | nexti32 | nextu32 | nexti64 | nextu64 | nextbool | nextf32 | nextf64 =>
    exact .of_seeded_check _ h (by decide)
  | fill n => exact .of_seeded_check opFill h (by decide)

theorem State.FaultInv.of_fault_none {s : State} (h : s.fault = none) : s.FaultInv :=
  fun r hr => by simp [h] at hr

theorem State.FaultInv.of_fault {s : State} {r : Cause × Op} (h : s.fault = some r) (hr : FaultRecord s.seeded r) :
    s.FaultInv :=
  fun _ h' => Option.some.inj (h.symm.trans h') ▸ hr

/-- Settling BUSY touches nothing the fault record's legality speaks of. -/
theorem State.FaultInv.settle {s : State} (h : s.FaultInv) : s.settle.FaultInv := h

/-- A command on an unfaulted block leaves a legal fault record. -/
theorem State.FaultInv.of_exec {i : Instr} {s u : State} (hf : s.fault = none) (h : exec i s = .next u) :
    u.FaultInv := by
  rcases exec_faults_or_passes h with ⟨c, hc, rfl⟩ | ⟨-, hu⟩
  · exact .of_fault rfl (firstCause_faultRecord hc)
  · exact .of_fault_none (hu.trans hf)

/-! ### Idle and halted blocks (R158, R159, R166) -/

theorem step_of_idle {s : State} (h : s.event = .idle) : step s = .next s.tick := by
  rw [step, h]

theorem step_of_reset {s : State} (h : s.pins.rst = true) : step s = .next s.tick.hardReset := by
  rw [step, State.event_reset h]

/-- Neither `rst` nor a word nor a waiting beat: nothing can transfer. -/
theorem State.event_idle {s : State} (hr : s.pins.rst = false) (hc : s.pins.cmd = none) (hp : s.pending = []) :
    s.event = .idle := by
  have hv : s.rspValid = false := by rw [State.rspValid, hp]; exact Bool.and_false _
  simp [State.event, hr, hc, hv]

/-- A halted block accepts no command. -/
theorem State.cmdReady_of_faulted {s : State} (h : s.fault.isSome = true) : s.cmdReady = false := by
  rw [State.cmdReady, Option.isNone_eq_false_iff.mpr h, Bool.and_false]

/-- A host that asserts no `rst` in its next `k + 1` samples asserts none now, and none in the `k` after. -/
theorem State.no_rst_succ {k : Nat} {s : State} (h : ∀ p ∈ s.inputs.take (k + 1), p.rst = false) :
    s.pins.rst = false ∧ ∀ p ∈ s.inputs.tail.take k, p.rst = false := by
  unfold State.pins
  cases hi : s.inputs with
  | nil => exact ⟨rfl, by simp⟩
  | cons p ps => simpa [hi] using h

/-! ### One block among several (R163) -/

/-- A block of the chip that steps is replaced by its own next state. -/
theorem Chip.stepInstance_next {c d : Chip} {k : Nat} (hk : k < c.length) (h : c.stepInstance k = .next d) :
    ∃ t, step (c.getD k State.reset) = .next t ∧ d = c.set k t := by
  unfold Chip.stepInstance at h
  rw [List.getD_eq_getElem c _ hk]
  rw [List.getElem?_eq_getElem hk] at h
  dsimp only at h
  split at h
  · next t ht =>
    injection h with h
    exact ⟨t, ht, h.symm⟩
  · cases h
  · cases h

/-! ### The statements -/

/-- Settles O14, by induction on the number of steps: each one finds the block not ready. -/
theorem haltedStays : Obligations.HaltedStays := by
  intro k
  induction k with
  | zero => exact fun s hf _ => ⟨s, run_zero s, rfl, rfl, rfl, rfl, State.cmdReady_of_faulted hf⟩
  | succ k ih =>
    intro s hf hrst
    obtain ⟨hr, hrest⟩ := State.no_rst_succ hrst
    obtain ⟨u, hu, hstate, hseeded, hfault, hbeats, hinputs⟩ := step_not_ready hr (State.cmdReady_of_faulted hf)
    rw [← hfault] at hf
    rw [← hinputs] at hrest
    rw [run_succ hu, ← hstate, ← hseeded, ← hfault, ← hbeats]
    exact ih u hf hrest

/-- Settles O15: without `rst` the halted block keeps its record, with it the block is reset. -/
theorem onlyResetLeavesFault : Obligations.OnlyResetLeavesFault := by
  intro s t hf h hne
  cases hr : s.pins.rst with
  | true =>
    obtain rfl : s.tick.hardReset = t := by simpa [step_of_reset hr] using h
    exact ⟨rfl, rfl, rfl, rfl⟩
  | false =>
    obtain ⟨u, hu, -, -, hfault, -, -⟩ := step_not_ready hr (State.cmdReady_of_faulted hf)
    obtain rfl : u = t := by simpa [hu] using h
    exact absurd hfault hne

/-- Settles O46: past its argument check every command but SEED comes to the SEEDED check. -/
theorem notSeeded : Obligations.NotSeeded := by
  intro i s hs hseed hstep hbound
  have key : exec i s = .next (s.raise .notSeeded i.op) := by
    cases i with
    | seed v => exact absurd rfl (hseed v)
    | step b => rw [exec_step_ok (hstep b rfl)]; exact State.ifSeeded_unseeded hs
    | boundi32 m => exact State.bounded_unseeded (hbound m (.inl rfl)) hs
    | boundu32 m => exact State.bounded_unseeded (hbound m (.inr rfl)) hs
    | getseed | nexti32 | nextu32 | nexti64 | nextu64 | nextbool | nextf32 | nextf64 | fill n =>
      exact State.ifSeeded_unseeded hs
  rw [key, ← opField_encode i]
  rfl

/-- Settles O47: the accepted word decodes and records its command's first cause, or is refused and records
ILLEGAL_OP. -/
theorem faultPriority : Obligations.FaultPriority := by
  intro s t w hr hw hb hf h
  have he := State.event_command hr hw hb hf
  cases hd : decode w with
  | error e =>
    obtain ⟨op⟩ := e
    obtain rfl : (s.tick.accept.raise .illegalOp op).settle = t := by simpa [step_of_illegal he hd] using h
    rfl
  | ok i =>
    rw [step_of_command he hd] at h
    obtain ⟨u, hu, rfl⟩ := settleAnswer_next h
    have hfault := exec_fault (s := s.tick.accept) hf hu
    rw [(decode_ok_op hd).1] at hfault
    exact hfault

/-- Settles O48: the two things a command can do to the fault record. -/
theorem faultEntry : Obligations.FaultEntry := by
  intro i s t hf h
  rcases exec_faults_or_passes h with ⟨c, hc, rfl⟩ | ⟨-, ht⟩
  · refine ⟨fun c' op he => ?_, fun hn => by simp [hn] at hc⟩
    obtain ⟨rfl, rfl⟩ : c = c' ∧ i.op = op := by simpa using he
    exact ⟨(opField_encode i).symm, rfl, State.status_faulted _ rfl rfl⟩
  · have hnone : t.fault = none := ht.trans hf
    exact ⟨fun c op he => by simp [hnone] at he, fun _ => hnone⟩

/-- Settles O55: only an accepted word writes a fault, on a block that has none. -/
theorem stepKeepsFaultRecord : Obligations.StepKeepsFaultRecord := by
  intro s t h hst
  rcases step_next hst with ⟨-, rfl⟩ | ⟨-, rfl⟩ | ⟨-, rfl⟩ | ⟨w, he, hw⟩
  · exact h
  · exact .of_fault_none rfl
  · simpa [State.FaultInv] using h
  · obtain ⟨-, -, -, hf⟩ := State.event_eq_command he
    rcases hw with ⟨i, u, -, hu, rfl⟩ | ⟨hop, rfl⟩
    · exact (State.FaultInv.of_exec (s := s.tick.accept) hf hu).settle
    · exact .of_fault rfl hop

/-- Settles O57: the chip after the step is the old one with the stepping block replaced. -/
theorem instancesIsolated : Obligations.InstancesIsolated := by
  rintro c d k s rfl hk h
  obtain ⟨t, ht, rfl⟩ := Chip.stepInstance_next hk h
  refine ⟨List.length_set, fun j hj => ?_, ?_⟩
  · simp [List.getD_eq_getElem?_getD, List.getElem?_set_ne (Ne.symm hj)]
  · rw [ht, List.getD_eq_getElem?_getD, List.getElem?_set_self hk, Option.getD_some]

/-- Settles O11: nothing transfers, so the step only uses the sample. -/
theorem idleKeeps : Obligations.IdleKeeps := fun _ hr hc hp => step_of_idle (State.event_idle hr hc hp)

end Sys2Proof.Machine
end

section
/-! PROOFS of the statements on reset and hazards (70_reset_and_hazards.md): what the pins give while the block is not
ready or in reset, and how far a run advances STATE; then one theorem for each statement. -/

namespace Sys2Proof.Machine

/-! ### Ready, back-pressure and reset at the pins (R170, R176) -/

theorem State.cmdReady_iff (s : State) :
    s.cmdReady = true ↔ s.pins.rst = false ∧ s.busy = false ∧ s.fault.isSome = false := by
  simp [State.cmdReady, and_assoc]

theorem State.cmdReady_of_rst {s : State} (hr : s.pins.rst = true) : s.cmdReady = false := by
  rw [State.cmdReady, hr]; rfl

theorem State.rspValid_of_rst {s : State} (hr : s.pins.rst = true) : s.rspValid = false := by
  rw [State.rspValid, hr]; rfl

/-- A block that is not ready, with a host that takes no beat: nothing can transfer. -/
theorem State.event_idle_of_withheld {s : State} (hr : s.pins.rst = false) (hc : s.cmdReady = false)
    (hy : s.pins.rspReady = false) : s.event = .idle := by
  rw [State.event_not_ready hr hc, hy, Bool.and_false]
  rfl

/-! ### How far a run advances STATE (R178) -/

/-- A run of a command whose row of R178 fixes the number leaves STATE advanced that often. -/
theorem Runs.state_of_fixedAdvances {i : Instr} {s t : State} {x : Lcg} {n k : Nat} {bs : List Beat}
    (h : Runs i s x n bs t) (hk : fixedAdvances i = some k) : t.state = some (advances k x) := by
  obtain rfl : n = k := (advancesBy_fixed hk x n).mp h.count
  rw [h.next]
  rfl

/-! ### The statements -/

/-- Settles O8: STATUS bits 2 and 1 are BUSY and FAULT, and a block that is not ready keeps what the claim lists. -/
theorem commandReady : Obligations.CommandReady := by
  constructor
  · intro s
    rw [s.status_getLsbD_two, s.status_getLsbD_one]
    exact s.cmdReady_iff
  · intro s hc hr
    obtain ⟨t, ht, hstate, hseeded, hfault, hbeats, -⟩ := step_not_ready hr hc
    exact ⟨t, ht, hstate, hseeded, hfault, hbeats⟩

/-- Settles O9: a busy block is not ready and the host takes no beat, so the step only uses the sample. -/
theorem backPressure : Obligations.BackPressure := fun _ hr hb hy =>
  step_of_idle (State.event_idle_of_withheld hr (State.cmdReady_of_busy hb) hy)

/-- Settles O12: `rst` wins over both channels and the step is the reset, whatever BUSY and FAULT. -/
theorem hardwareReset : Obligations.HardwareReset := fun s hr =>
  ⟨State.cmdReady_of_rst hr, State.rspValid_of_rst hr, s.tick.hardReset, step_of_reset hr, rfl, rfl, rfl, rfl, rfl,
    State.status_idle _ rfl rfl, rfl, rfl⟩

/-- Settles O49: a command other than SEED that does not fault runs, and it runs on the value STATE holds. -/
theorem advanceCounts : Obligations.AdvanceCounts := by
  intro i s t x k _ _ hx hi hk h ht
  rcases exec_next_of_ne_seed hi h with ⟨c, -, rfl⟩ | ⟨y, n, bs, hr⟩
  · cases ht
  · obtain rfl : y = x := Option.some.inj (hr.state.symm.trans hx)
    exact hr.state_of_fixedAdvances hk

end Sys2Proof.Machine
end
